-- ==== Sys2Proof/Word.lean ====
section
/-! DEFINITION. The widths HUFFENC's ports and registers move (spec/00_scope.md R8, R10; spec/20_memory.md R60). Every value is an
unsigned integer of the width stated; nothing is signed (R10, R15). -/

namespace Sys2Proof

/-- One byte: an output byte, a byte value of the alphabet, the ARG operand (R7, R83). -/
abbrev Byte := BitVec 8

/-- One command word, the whole of one transfer on the command port (R80). -/
abbrev CmdWord := BitVec 32

/-- One register of the read space, one frequency counter, one tree record (R8, R52, R140). -/
abbrev Word64 := BitVec 64

/-- One code value register, CODE_W = 256 (R8). -/
abbrev CodeWord := BitVec 256

/-- A register word address, 12 bits (R8, R52). -/
abbrev RegAddr := BitVec 12

/-- A table indexed by byte value: N_SYM = 256 entries (R7). -/
abbrev ByteTable (α : Type) := Vector α 256

end Sys2Proof
end

