-- ==== Sys2Proof/Syntax.lean ====
section
/-! DEFINITION. The eleven commands (spec/30_encoding.md R84), the fields of a command word (R80), and the lines of the host-side
assembler notation (R87, R88). -/

namespace Sys2Proof

/-- The commands of R84, one constructor per row of spec/opcode_table.json. COUNT and ENCODE carry the byte b = ARG (R83). -/
inductive Instr where
  | nop
  | clear
  | count (b : Byte)
  | build
  | assign
  | emitHdr
  | emitTree
  | emitSep
  | encode (b : Byte)
  | flush
  | abort
deriving DecidableEq, Repr

/-- The one format, CMD32 (R80): OPC = w[31:28], RSV = w[27:8], ARG = w[7:0]. -/
structure Fields where
  opc : BitVec 4
  rsv : BitVec 20
  arg : Byte
deriving DecidableEq, Repr

/-- One line of the assembler notation (R87) before its operand is checked: a mnemonic with the operand's value, if one is written. -/
structure SourceLine where
  mnemonic : String
  operand  : Option Nat
deriving DecidableEq, Repr

/-- The pseudo-instructions of R88, macros of the host-side assembler. -/
inductive Macro where
  | counts (s : List Byte)
  | encodes (s : List Byte)
  | pfx
  | compress (s : List Byte)
deriving DecidableEq, Repr

end Sys2Proof
end

