-- ==== Sys2Proof/WellFormed.lean ====
section
/-! DEFINITION. The format checks: of a command word's fields (spec/30_encoding.md R82, R83, R85, R86), and of an assembler line (R87). -/

namespace Sys2Proof

/-- Whether OPC names a command with an operand: COUNT (0x2) or ENCODE (0x8) (R83, R85). -/
def Fields.takesByte (f : Fields) : Bool := f.opc == 0x2#4 || f.opc == 0x8#4

/-- First check of R85: OPC is not one of the reserved values 0xB to 0xF (R86). -/
def Fields.opcodeDefined (f : Fields) : Bool := f.opc.toNat < 0xB

/-- Second check of R85: the reserved field is 0 (R82). -/
def Fields.reservedZero (f : Fields) : Bool := f.rsv == 0#20

/-- Third check of R85: only COUNT and ENCODE may have a nonzero ARG (R83). -/
def Fields.argAllowed (f : Fields) : Bool := f.takesByte || f.arg == 0#8

/-- A word of legal format passes the three checks of R85. -/
def Fields.wellFormed (f : Fields) : Bool := f.opcodeDefined && f.reservedZero && f.argAllowed

/-- The mnemonics that take no operand (R84, R87). -/
def plainMnemonics : List String :=
  ["NOP", "CLEAR", "BUILD", "ASSIGN", "EMIT_HDR", "EMIT_TREE", "EMIT_SEP", "FLUSH", "ABORT"]

/-- The mnemonics whose operand is a byte (R87). -/
def byteMnemonics : List String := ["COUNT", "ENCODE"]

/-- A line the assembler accepts (R87): a known upper-case mnemonic, with an operand of 0 to 255 for COUNT and ENCODE and none for the
others. -/
def SourceLine.wellFormed (l : SourceLine) : Bool :=
  match l.operand with
  | none => plainMnemonics.contains l.mnemonic
  | some n => byteMnemonics.contains l.mnemonic && n < 256

end Sys2Proof
end

