-- ==== Sys2Proof/Decode.lean ====
section
/-! DEFINITION. The command decoder, total on every 32-bit word and rejecting by name (spec/30_encoding.md R80 to R86, R89), and after it
the encoder, written from the word patterns of R84. -/

namespace Sys2Proof

/-- Why a word is no command, in the order R85 checks (R203, R208). -/
inductive Reject where
  /-- OPC is 0xB to 0xF (R86). -/
  | reservedOpcode
  /-- RSV = w[27:8] is not 0 (R82). -/
  | reservedField
  /-- ARG is not 0 on a command without an operand (R83). -/
  | strayArgument
deriving DecidableEq, Repr

/-- What the decoder makes of a word: exactly one outcome for each (R85). -/
inductive Decoded where
  | instr (i : Instr)
  | reject (r : Reject)
deriving DecidableEq, Repr

/-- The fields of a word (R80): OPC = w[31:28], RSV = w[27:8], ARG = w[7:0]. -/
def fieldsOf (w : CmdWord) : Fields :=
  { opc := w.extractLsb' 28 4, rsv := w.extractLsb' 8 20, arg := w.extractLsb' 0 8 }

/-- The command an opcode below 0xB selects (R84), with its operand. -/
def commandOf (opc : Nat) (arg : Byte) : Decoded :=
  match opc with
  | 0x0 => .instr .nop
  | 0x1 => .instr .clear
  | 0x2 => .instr (.count arg)
  | 0x3 => .instr .build
  | 0x4 => .instr .assign
  | 0x5 => .instr .emitHdr
  | 0x6 => .instr .emitTree
  | 0x7 => .instr .emitSep
  | 0x8 => .instr (.encode arg)
  | 0x9 => .instr .flush
  | 0xA => .instr .abort
  | _ => .reject .reservedOpcode

/-- The decoder of R85: the three format checks in their order, then the opcode map. -/
def decode (w : CmdWord) : Decoded :=
  let f := fieldsOf w
  if !f.opcodeDefined then .reject .reservedOpcode
  else if !f.reservedZero then .reject .reservedField
  else if !f.argAllowed then .reject .strayArgument
  else commandOf f.opc.toNat f.arg

/-- The decoder on a table word: bit 0 of `w` is bit 0 of the command word (every row has 32 bits, R89). -/
def decodeTableWord (nbits w : Nat) : Option Instr :=
  match decode (BitVec.ofNat 32 (w % 2 ^ nbits)) with
  | .instr i => some i
  | .reject _ => none

/-- The word patterns listed under R84. -/
def encode : Instr → CmdWord
  | .nop => 0x00000000#32
  | .clear => 0x10000000#32
  | .count b => 0x20000000#32 ||| b.setWidth 32
  | .build => 0x30000000#32
  | .assign => 0x40000000#32
  | .emitHdr => 0x50000000#32
  | .emitTree => 0x60000000#32
  | .emitSep => 0x70000000#32
  | .encode b => 0x80000000#32 ||| b.setWidth 32
  | .flush => 0x90000000#32
  | .abort => 0xA0000000#32

end Sys2Proof
end

