-- ==== Sys2Proof/Config.lean ====
section
/-! DEFINITION. What an implementation fixes (spec/00_scope.md R9) and the one free value of the model (spec/20_memory.md R64). -/

namespace Sys2Proof

/-- The two parameters of R9. -/
structure Config where
  /-- LEFT_FIRST (R9, R114): when true the lower-ranked node of a merge is the left child. The spec's default is true (D9). -/
  leftFirst : Bool := true
  /-- OUT_DEPTH (R9, R67): the capacity of OUTQ in hardware, at least 1. It affects only timing: no step reads it, and the model's OUTQ is
  unbounded (log entry 7). -/
  outDepth : Nat := 1
deriving DecidableEq, Repr

/-- "`OUT_DEPTH : Nat`, at least 1" (R9). -/
def Config.wellFormed (c : Config) : Bool := 1 ≤ c.outDepth

/-- FREE VALUE (R64, treatment "any value" of I11): what a register read answers while BUSY = 1, for a register the command in CUR
writes. It has no body; the argument is the number of free draws made before, so that each read draws afresh (log entry 3). -/
opaque Config.freeRead : Nat → Word64

end Sys2Proof
end

