-- ==== Sys2Proof/Machine/State.lean ====
section
/-! DEFINITION. Every piece of state the spec gives HUFFENC (spec/10_state.md), as plain data, with the model's own host side
(spec/70_reset_and_hazards.md R243), the reasons a step could stop, and the state after reset (R40). -/

namespace Sys2Proof.Machine

/-- PHASE (R23). All eight encodings are used, so the names are the whole register. -/
inductive Phase where
  | count | built | coded | hdr | tree | payload | done | error
deriving DecidableEq, Repr

/-- The 3-bit encoding of PHASE (R23). -/
def Phase.bits : Phase → BitVec 3
  | .count => 0 | .built => 1 | .coded => 2 | .hdr => 3 | .tree => 4 | .payload => 5 | .done => 6 | .error => 7

/-- ERR (R24, R200). Codes 7 to 15 are never produced, so they have no name here (I14). -/
inductive ErrCode where
  | none | emptyInput | ioFailure | illegalCommand | sequenceError | symbolAbsent | countOverflow
deriving DecidableEq, Repr

/-- The 4-bit code of ERR (R200). -/
def ErrCode.bits : ErrCode → BitVec 4
  | .none => 0 | .emptyInput => 1 | .ioFailure => 2 | .illegalCommand => 3 | .sequenceError => 4 | .symbolAbsent => 5
  | .countOverflow => 6

/-- The abstract tree of R12: a leaf is one byte value, an internal node one merge with its age. -/
inductive Tree where
  | leaf (sym : Byte) (freq : Word64)
  | internal (freq : Word64) (age : BitVec 8) (left right : Tree)
deriving DecidableEq, Repr

/-- One turn of the schedule: the engine's step, or one of the four host steps of R243. -/
inductive Turn where
  /-- The engine's turn: its `exec` step, when BUSY = 1. -/
  | engine
  /-- The host offers a command word (R62). -/
  | issue (w : CmdWord)
  /-- The host reads the register at an address (R52). -/
  | read (a : RegAddr)
  /-- The host takes the byte at the head of OUTQ (R56). -/
  | drain
  /-- The host asserts `rst` (R230). -/
  | reset
deriving DecidableEq, Repr

/-- The MODEL's own fields, not the block's: what the host is going to do and what it got (R66, R243; log entry 1). -/
structure HostSide where
  /-- The turns still to come, first first. -/
  agenda : List Turn
  /-- The bytes drained since the run started, that is since the last reset or CLEAR (R235; log entry 2). -/
  drained : List Byte
  /-- The answers of the host's reads so far, first first. -/
  answers : List (RegAddr × Word64)
  /-- How many free values have been drawn (R64; log entry 3). -/
  draws : Nat
deriving DecidableEq, Repr

/-- The state of HUFFENC (R23 to R36) and the host side of the model. -/
structure State where
  /-- The parameters LEFT_FIRST and OUT_DEPTH of R9: fixed for the machine, written by no step (log entry 4). -/
  cfg : Config
  /-- PHASE, 3 bits (R23). -/
  phase : Phase
  /-- ERR, 4 bits (R24). -/
  err : ErrCode
  /-- ERRINFO, 35 bits: [34:32] the phase before the command, [31:0] its word (R25). -/
  errInfo : BitVec 35
  /-- FREQ[0..255], 64 bits each (R26). -/
  freq : ByteTable Word64
  /-- TOTAL, 64 bits (R27). -/
  total : Word64
  /-- TREE and TREE_V in one: `some t` when TREE_V = 1 (R28). -/
  tree : Option Tree
  /-- LEAVES, 9 bits (R30). -/
  leaves : BitVec 9
  /-- NODES, 10 bits (R30). -/
  nodes : BitVec 10
  /-- MERGES, 8 bits (R30). -/
  merges : BitVec 8
  /-- The hidden age counter, 8 bits (R36, R40, R115). -/
  age : BitVec 8
  /-- CODES_V, 1 bit (R31). -/
  codesV : Bool
  /-- CODE_LEN[0..255], 8 bits each (R31). -/
  codeLen : ByteTable (BitVec 8)
  /-- CODE_VAL[0..255], 256 bits each (R31). -/
  codeVal : ByteTable CodeWord
  /-- ACC, 8 bits (R32). -/
  acc : Byte
  /-- FILL, 3 bits (R32). -/
  fill : BitVec 3
  /-- PAYLOAD_BITS, 64 bits (R33). -/
  payloadBits : Word64
  /-- ENC_COUNT, 64 bits (R33). -/
  encCount : Word64
  /-- OUTQ, oldest byte first, unbounded in the model (R34, R67). -/
  outq : List Byte
  /-- OUT_BYTES, 64 bits (R34). -/
  outBytes : Word64
  /-- BUSY, 1 bit (R35). -/
  busy : Bool
  /-- CUR, 32 bits (R35). -/
  cur : CmdWord
  /-- The model's own host side (R243). -/
  host : HostSide
deriving DecidableEq, Repr

/-- The reasons the machine stops with a fault. There is none, and nothing raises one: every error of the spec is the sticky error state
R205 enters, register reads never fault (R52), and a step that is not enabled is a hold, not a fault (R236). Safe: no behaviour is cut off. -/
inductive Fault
deriving DecidableEq, Repr

/-- The reasons a step is refused. -/
inductive Refusal where
  /-- Raised only by an arm of `exec` for an instruction without a meaning. No arm does: every command has its meaning. Safe. -/
  | notModelled (mnemonic : String)
deriving DecidableEq, Repr

/-- The state right after reset (R40), for the default LEFT_FIRST and an OUT_DEPTH of 1 (R9; log entries 4 and 7), with a host that has nothing to do yet. -/
def State.reset : State where
  cfg := {}
  phase := .count
  err := .none
  errInfo := 0
  freq := Vector.replicate 256 0
  total := 0
  tree := none
  leaves := 0
  nodes := 0
  merges := 0
  age := 0
  codesV := false
  codeLen := Vector.replicate 256 0
  codeVal := Vector.replicate 256 0
  acc := 0
  fill := 0
  payloadBits := 0
  encCount := 0
  outq := []
  outBytes := 0
  busy := false
  cur := 0
  host := { agenda := [], drained := [], answers := [], draws := 0 }

end Sys2Proof.Machine
end

