-- ==== Sys2Proof/Machine/Operands.lean ====
section
/-! DEFINITION. The one operand form: the byte b = ARG used directly as a table index (spec/30_encoding.md R83). -/

namespace Sys2Proof.Machine

/-- Every byte is an index of a table (R83: "used directly as the table index"). -/
theorem byte_lt_256 (b : Byte) : b.toNat < 256 := b.isLt

/-- Entry b of a table (R11: `FREQ[b]`, `CODE_LEN[b]`, `CODE_VAL[b]`). -/
def tableGet {α : Type} (t : ByteTable α) (b : Byte) : α := t[b.toNat]'(byte_lt_256 b)

/-- The table with entry b replaced (R11: `X <- v`). -/
def tableSet {α : Type} (t : ByteTable α) (b : Byte) (x : α) : ByteTable α := t.set b.toNat x (byte_lt_256 b)

/-- The byte values 0 to 255 (R7), in ascending order. -/
def allBytes : List Byte := (List.range 256).map (BitVec.ofNat 8)

end Sys2Proof.Machine
end

