-- ==== Sys2Proof/Machine/Ops.lean ====
section
/-! DEFINITION. The operations the commands share: Emit (spec/20_memory.md R56), the error entry `raise` and the return from it
(spec/60_exceptions.md R205, R210), the checks every command makes first (spec/30_encoding.md R85), and the tree's fields, order of
visit and record (spec/00_scope.md R12, spec/43_serializer.md R140). -/

namespace Sys2Proof.Machine

/-! ### Completion, output -/

/-- The end of every `exec` step: `BUSY <- 0` (R35, R85). -/
def finish (s : State) : State := { s with busy := false }

/-- `Emit(x)`: x goes to the tail of OUTQ and OUT_BYTES counts it modulo 2^64 (R56). -/
def emit (x : Byte) (s : State) : State := { s with outq := s.outq ++ [x], outBytes := s.outBytes + 1 }

/-- `Emit` of each byte in turn (R57). -/
def emitAll : List Byte → State → State
  | [], s => s
  | x :: xs, s => emitAll xs (emit x s)

/-! ### Error entry and return -/

/-- `raise E(w)` with w = CUR (R205): ERRINFO, ERR, PHASE and BUSY change, nothing else. -/
def raise (e : ErrCode) (s : State) : State :=
  { s with errInfo := s.phase.bits ++ s.cur, err := e, phase := .error, busy := false }

/-- The reset state as one block keeps it: every piece of state of R40 at its reset value, the parameters kept (R9), and a new run begun on
the host side (R235). It is the effect of `rst` (R230) and of CLEAR (R181, R232), the only two ways out of ERROR (R210). -/
def resetState (s : State) : State :=
  { State.reset with cfg := s.cfg, host := { s.host with drained := [] } }

/-! ### The checks before a command's effects -/

/-- The "legal in" column of R84. -/
def legalIn : Instr → Phase → Bool
  | .nop, p => p != .error
  | .clear, _ => true
  | .count _, p => p == .count
  | .build, p => p == .count
  | .assign, p => p == .built
  | .emitHdr, p => p == .coded
  | .emitTree, p => p == .hdr
  | .emitSep, p => p == .tree
  | .encode _, p => p == .payload
  | .flush, p => p == .payload
  | .abort, p => p != .error

/-- The command's own error (R208, third in priority): COUNT_OVERFLOW (R207), EMPTY_INPUT (R116), SYMBOL_ABSENT (R206) and
IO_FAILURE (R182). No command has more than one. -/
def ownError : Instr → State → Option ErrCode
  | .nop, _ => none
  | .clear, _ => none
  | .count _, s => if s.total = BitVec.allOnes 64 then some .countOverflow else none
  | .build, s => if s.total = 0 then some .emptyInput else none
  | .assign, _ => none
  | .emitHdr, _ => none
  | .emitTree, _ => none
  | .emitSep, _ => none
  | .encode b, s => if tableGet s.freq b = 0 then some .symbolAbsent else none
  | .flush, _ => none
  | .abort, _ => some .ioFailure

/-- The error a well-formed command raises outside ERROR, if it raises one: phase first, then its own (R208). -/
def commandError (i : Instr) (s : State) : Option ErrCode :=
  if legalIn i s.phase then ownError i s else some .sequenceError

/-- The dispatch of R85 for a command other than CLEAR: in ERROR it is discarded (R209), an error enters ERROR with no other effect
(R205), and otherwise its effect happens; BUSY falls in every case. -/
def runCommand (i : Instr) (effect : State → State) (s : State) : Host.Outcome State Fault Refusal :=
  if s.phase = .error then .next (finish s)
  else match commandError i s with
    | some e => .next (raise e s)
    | none => .next (finish (effect s))

/-- The word the engine takes its command from: the command latch CUR (R35, R85). -/
def fetchWord (s : State) : CmdWord := s.cur

/-- The state in which the word w is latched for the engine (R35). -/
def latchWord (w : CmdWord) (s : State) : State := { s with cur := w, busy := true }

/-! ### The tree -/

/-- `isLeaf(n)` (R12). -/
def Tree.isLeaf : Tree → Bool
  | .leaf _ _ => true
  | .internal _ _ _ _ => false

/-- `n.freq` (R12). -/
def Tree.freq : Tree → Word64
  | .leaf _ f => f
  | .internal f _ _ _ => f

/-- `preorder(t)`: node first, then the left subtree, then the right (R12). -/
def Tree.preorder : Tree → List Tree
  | .leaf s f => [.leaf s f]
  | .internal f a l r => .internal f a l r :: (Tree.preorder l ++ Tree.preorder r)

/-- The byte field of a record: the byte value of a leaf, 0 for an internal node (R140). -/
def Tree.recordByte : Tree → Byte
  | .leaf s _ => s
  | .internal _ _ _ _ => 0

/-- `Ser(n)` (R140): byte field in bits 63:56, the frequency's low 55 bits in 55:1 (R141), the leaf flag in bit 0. -/
def Tree.record (n : Tree) : Word64 :=
  n.recordByte ++ n.freq.setWidth 55 ++ BitVec.ofBool n.isLeaf

/-- The eight bytes of a 64-bit value, least significant first (R58, R144). -/
def bytesLE (r : Word64) : List Byte := (List.range 8).map fun i => r.extractLsb' (8 * i) 8

end Sys2Proof.Machine
end

