-- ==== Sys2Proof/Machine/BitPacker.lean ====
section
/-! DEFINITION. ENCODE and FLUSH (spec/44_bitpacker.md R161, R162). -/

namespace Sys2Proof.Machine

/-- The bits that go into ACC: the low k bits of v, placed at bit f (R161: `trunc_8((v & (2^k - 1)) << f)`). -/
def placeBits (v : CodeWord) (k f : Nat) : Byte := ((v &&& (BitVec.ofNat 256 (2 ^ k - 1))) <<< f).setWidth 8

/-- The loop of R161 with its locals: v the bits still to place, n how many, f the filled bits of ACC. Each round places at least one bit, so
n rounds are enough. At the end `FILL <- f`. -/
def packLoop : Nat → CodeWord → Nat → Nat → State → State
  | 0, _, _, f, s => { s with fill := BitVec.ofNat 3 f }
  | fuel + 1, v, n, f, s =>
    if n = 0 then { s with fill := BitVec.ofNat 3 f }
    else
      let k := min n (8 - f)
      let acc := s.acc ||| placeBits v k f
      if f + k = 8 then packLoop fuel (v >>> k) (n - k) 0 { emit acc s with acc := 0 }
      else packLoop fuel (v >>> k) (n - k) (f + k) { s with acc := acc }

/-- The effect of ENCODE b (R161): the two diagnostic counters, then the loop over the code's bits. -/
def encodeByte (b : Byte) (s : State) : State :=
  let v := tableGet s.codeVal b
  let n := tableGet s.codeLen b
  packLoop n.toNat v n.toNat s.fill.toNat
    { s with payloadBits := s.payloadBits + n.setWidth 64, encCount := s.encCount + 1 }

/-- The effect of FLUSH (R162): a partly filled byte is emitted as it stands. -/
def flushEffect (s : State) : State :=
  if s.fill = 0 then { s with phase := .done }
  else { emit s.acc s with acc := 0, fill := 0, phase := .done }

/-- ENCODE b (R161). -/
def execEncode (b : Byte) (s : State) : Host.Outcome State Fault Refusal := runCommand (.encode b) (encodeByte b) s

/-- FLUSH (R162). -/
def execFlush (s : State) : Host.Outcome State Fault Refusal := runCommand .flush flushEffect s

end Sys2Proof.Machine
end

