-- ==== Sys2Proof/Machine/CodeAssigner.lean ====
section
/-! DEFINITION. ASSIGN: the code walk and the command (spec/42_code_assigner.md R130). -/

namespace Sys2Proof.Machine

/-- The code table while the walk writes it (R31): lengths and values. -/
structure CodeTable where
  len : ByteTable (BitVec 8)
  val : ByteTable CodeWord
deriving DecidableEq, Repr

/-- The table the walk starts from: every entry 0 (R130). -/
def emptyCodes : CodeTable := { len := Vector.replicate 256 0, val := Vector.replicate 256 0 }

/-- `walk(n, d, v)` (R130): a leaf gets length d and value v; the left child keeps v, the right child sets bit d. -/
def walk : Tree → Nat → CodeWord → CodeTable → CodeTable
  | .leaf s _, d, v, c => { len := tableSet c.len s (BitVec.ofNat 8 d), val := tableSet c.val s v }
  | .internal _ _ l r, d, v, c => walk r (d + 1) (v ||| (1#256 <<< d)) (walk l (d + 1) v c)

/-- The code table of a tree; with no tree there is nothing to walk. -/
def codesOf : Option Tree → CodeTable
  | none => emptyCodes
  | some t => walk t 0 0 emptyCodes

/-- The effect of ASSIGN (R130): CODE_LEN, CODE_VAL, CODES_V and PHASE. -/
def assignEffect (s : State) : State :=
  { s with codeLen := (codesOf s.tree).len, codeVal := (codesOf s.tree).val, codesV := true, phase := .coded }

/-- ASSIGN (R130). -/
def execAssign (s : State) : Host.Outcome State Fault Refusal := runCommand .assign assignEffect s

end Sys2Proof.Machine
end

