-- ==== Sys2Proof/Machine/Control.lean ====
section
/-! DEFINITION. NOP, CLEAR and ABORT (spec/45_control.md R180 to R182), and a word that is no command (spec/60_exceptions.md R203). -/

namespace Sys2Proof.Machine

/-- NOP (R180): no state changes. -/
def execNop (s : State) : Host.Outcome State Fault Refusal := runCommand .nop (fun s => s) s

/-- CLEAR (R181): every piece of state to its reset value, in every phase, ERROR included. -/
def execClear (s : State) : Host.Outcome State Fault Refusal := .next (resetState s)

/-- ABORT (R182): IO_FAILURE is the command's own error (`ownError`), so outside ERROR it always raises and has no other effect. -/
def execAbort (s : State) : Host.Outcome State Fault Refusal := runCommand .abort (fun s => s) s

/-- A word the decoder rejects: discarded in ERROR (R209), else ILLEGAL_COMMAND (R203). -/
def execIllegal (s : State) : Host.Outcome State Fault Refusal :=
  if s.phase = .error then .next (finish s) else .next (raise .illegalCommand s)

end Sys2Proof.Machine
end

