-- ==== Sys2Proof/Machine/Frequency.lean ====
section
/-! DEFINITION. COUNT (spec/40_frequency.md R100). -/

namespace Sys2Proof.Machine

/-- The effect of COUNT b: FREQ[b] and TOTAL go up by one (R100). -/
def countByte (b : Byte) (s : State) : State :=
  { s with freq := tableSet s.freq b (tableGet s.freq b + 1), total := s.total + 1 }

/-- COUNT b (R100). -/
def execCount (b : Byte) (s : State) : Host.Outcome State Fault Refusal := runCommand (.count b) (countByte b) s

end Sys2Proof.Machine
end

