-- ==== Sys2Proof/Machine/Serializer.lean ====
section
/-! DEFINITION. EMIT_HDR, EMIT_TREE and EMIT_SEP (spec/43_serializer.md R142 to R145). -/

namespace Sys2Proof.Machine

/-- MAGIC (R142). -/
def magic : List Byte := [0x7B, 0x68, 0x75, 0x7C, 0x6D, 0x7D, 0x66, 0x66]

/-- The separator: eight zero bytes (R145). -/
def separator : List Byte := List.replicate 8 0

/-- The tree block (R144): the records in pre-order, each least significant byte first. -/
def treeBlock : Option Tree → List Byte
  | none => []
  | some t => t.preorder.flatMap fun n => bytesLE n.record

/-- The effect of EMIT_HDR (R143). -/
def emitHdrEffect (s : State) : State := { emitAll magic s with phase := .hdr }

/-- The effect of EMIT_TREE (R144). -/
def emitTreeEffect (s : State) : State := { emitAll (treeBlock s.tree) s with phase := .tree }

/-- The effect of EMIT_SEP (R145). -/
def emitSepEffect (s : State) : State := { emitAll separator s with phase := .payload }

/-- EMIT_HDR (R143). -/
def execEmitHdr (s : State) : Host.Outcome State Fault Refusal := runCommand .emitHdr emitHdrEffect s

/-- EMIT_TREE (R144). -/
def execEmitTree (s : State) : Host.Outcome State Fault Refusal := runCommand .emitTree emitTreeEffect s

/-- EMIT_SEP (R145). -/
def execEmitSep (s : State) : Host.Outcome State Fault Refusal := runCommand .emitSep emitSepEffect s

end Sys2Proof.Machine
end

