-- ==== Sys2Proof/Machine/TreeBuilder.lean ====
section
/-! DEFINITION. BUILD: the rank order, the merge loop and the command (spec/41_tree_builder.md R110 to R118). -/

namespace Sys2Proof.Machine

/-- The four-level order of R110. -/
def ranksLower (x y : Tree) : Bool :=
  if x.freq != y.freq then x.freq.ult y.freq
  else match x, y with
    | .leaf s _, .leaf s' _ => s.ult s'
    | .internal _ a _ _, .internal _ a' _ _ => a.ult a'
    | .leaf _ _, .internal _ _ _ _ => true
    | .internal _ _ _ _, .leaf _ _ => false

/-- The low 8 bits of the rank key: a leaf's byte value, an internal node's age (R111). -/
def Tree.tieByte : Tree → BitVec 8
  | .leaf s _ => s
  | .internal _ a _ _ => a

/-- The 73-bit rank key of R111: `{ n.freq, isLeaf(n) ? 0 : 1, isLeaf(n) ? n.sym : n.age }`. -/
def rankKey (n : Tree) : BitVec 73 := n.freq ++ BitVec.ofBool (!n.isLeaf) ++ n.tieByte

/-- `merge(n1, n2, age)` (R114): n1, removed first, is the left child when LEFT_FIRST is true and the right child otherwise. -/
def merge (leftFirst : Bool) (n1 n2 : Tree) (age : BitVec 8) : Tree :=
  if leftFirst then .internal (n1.freq + n2.freq) age n1 n2 else .internal (n1.freq + n2.freq) age n2 n1

/-- The first candidates of a build (R113): one leaf for each byte value that occurs (R102). -/
def candidates (freq : ByteTable Word64) : List Tree :=
  allBytes.filterMap fun b => if tableGet freq b = 0 then none else some (.leaf b (tableGet freq b))

/-- The number of byte values that occur (R113: LEAVES). -/
def leafCount (freq : ByteTable Word64) : Nat := (allBytes.filter fun b => tableGet freq b != 0).length

/-- The least-ranked candidate and the others (R113: "the element of C with least key(.)"). -/
def takeLeast : List Tree → Option (Tree × List Tree)
  | [] => none
  | x :: xs =>
    match takeLeast xs with
    | none => some (x, [])
    | some (m, rest) => if ranksLower x m then some (x, xs) else some (m, x :: rest)

/-- The merge loop of R113, at most `fuel` merges: the two least candidates are merged with the next age until one is left. It answers the
candidates left and the age counter (R115). -/
def mergeLoop (leftFirst : Bool) : Nat → BitVec 8 → List Tree → List Tree × BitVec 8
  | 0, age, c => (c, age)
  | fuel + 1, age, c =>
    match takeLeast c with
    | none => (c, age)
    | some (n1, c1) =>
      match takeLeast c1 with
      | none => (c, age)
      | some (n2, c2) => mergeLoop leftFirst fuel (age + 1) (merge leftFirst n1 n2 age :: c2)

/-- The whole build (R113): the root, if there was a candidate, and the age counter's final value. Each merge takes one candidate away, so
as many rounds as candidates are enough (R118). -/
def buildTree (leftFirst : Bool) (freq : ByteTable Word64) : Option Tree × BitVec 8 :=
  let c := candidates freq
  let r := mergeLoop leftFirst c.length 0 c
  (r.1.head?, r.2)

/-- The effect of BUILD (R113, R30): TREE, LEAVES, NODES, MERGES, the age counter and PHASE. -/
def buildEffect (s : State) : State :=
  let r := buildTree s.cfg.leftFirst s.freq
  let n := leafCount s.freq
  { s with tree := r.1, leaves := BitVec.ofNat 9 n, nodes := BitVec.ofNat 10 (2 * n - 1), merges := r.2, age := r.2, phase := .built }

/-- BUILD (R113). -/
def execBuild (s : State) : Host.Outcome State Fault Refusal := runCommand .build buildEffect s

end Sys2Proof.Machine
end

