-- ==== Sys2Proof/Machine/Dispatch.lean ====
section
/-! DEFINITION. One arm for each command of spec/30_encoding.md R84. -/

namespace Sys2Proof.Machine

def exec (i : Instr) (s : State) : Host.Outcome State Fault Refusal :=
  match i with
  | .nop => Sys2Proof.Machine.execNop s
  | .clear => Sys2Proof.Machine.execClear s
  | .count b => Sys2Proof.Machine.execCount b s
  | .build => Sys2Proof.Machine.execBuild s
  | .assign => Sys2Proof.Machine.execAssign s
  | .emitHdr => Sys2Proof.Machine.execEmitHdr s
  | .emitTree => Sys2Proof.Machine.execEmitTree s
  | .emitSep => Sys2Proof.Machine.execEmitSep s
  | .encode b => Sys2Proof.Machine.execEncode b s
  | .flush => Sys2Proof.Machine.execFlush s
  | .abort => Sys2Proof.Machine.execAbort s

end Sys2Proof.Machine
end

