-- ==== Sys2Proof/Machine/Flags.lean ====
section
/-! DEFINITION. HUFFENC has no arithmetic flags (spec/10_state.md R22). This file holds every computed status bit: the STATUS fields (R39),
PRESENT (R31), and the output pins (R37, spec/20_memory.md R51). -/

namespace Sys2Proof.Machine

/-- TREE_V (R28). -/
def treeV (s : State) : Bool := s.tree.isSome

/-- DEGEN: TREE_V = 1 and the root is a leaf (R39). -/
def degen (s : State) : Bool :=
  match s.tree with
  | some t => t.isLeaf
  | none => false

/-- OUTQ_NE: OUTQ is not empty (R39). -/
def outqNE (s : State) : Bool := !s.outq.isEmpty

/-- `PRESENT(b) = CODES_V ∧ FREQ[b] ≠ 0` (R31). -/
def present (b : Byte) (s : State) : Bool := s.codesV && tableGet s.freq b != 0

/-- The STATUS register (R39): OUTQ_NE [11], CODES_V [10], TREE_V [9], DEGEN [8], ERR [7:4], BUSY [3], PHASE [2:0]. -/
def statusReg (s : State) : Word64 :=
  0#52 ++ BitVec.ofBool (outqNE s) ++ BitVec.ofBool s.codesV ++ BitVec.ofBool (treeV s) ++ BitVec.ofBool (degen s) ++ s.err.bits
    ++ BitVec.ofBool s.busy ++ s.phase.bits

/-- The pin `err_o`: 1 exactly in ERROR, a level (R37, R212). -/
def errO (s : State) : Bool := s.phase == .error

/-- The pin `cmd_ready` = NOT BUSY (R35, R51). -/
def cmdReady (s : State) : Bool := !s.busy

/-- The pin `out_valid`: OUTQ is not empty (R51). -/
def outValid (s : State) : Bool := outqNE s

/-- The pins `out_data`: the byte at the head of OUTQ, when there is one (R51). -/
def outData (s : State) : Option Byte := s.outq.head?

/-- OUTQ holds as many bytes as the hardware's queue can (R67). The hardware's engine then holds; the model's does not (log entry 7). -/
def outqFull (s : State) : Bool := s.cfg.outDepth ≤ s.outq.length

end Sys2Proof.Machine
end

