-- ==== Sys2Proof/Machine/RegSpace.lean ====
section
/-! DEFINITION. The register read space: the map of spec/20_memory.md R53 and R54, and which registers a running command writes (R64). -/

namespace Sys2Proof.Machine

/-- The registers of R53, and the reserved addresses of R54. -/
inductive Reg where
  | status | ident | total | leaves | nodes | merges | payloadBits | outBytes | packer | encCount | errInfo
  | freq (b : Byte)
  | codeLen (b : Byte)
  /-- CODE_VAL[b] word w (R55). -/
  | codeVal (b : Byte) (w : BitVec 2)
  /-- TREE_REC[i], i = 0 to 510 (R148). -/
  | treeRec (i : Nat)
  | reserved
deriving DecidableEq, Repr

/-- The address column of R53; every other address is reserved (R54). -/
def Reg.ofAddr (a : RegAddr) : Reg :=
  let n := a.toNat
  if n = 0x000 then .status
  else if n = 0x001 then .ident
  else if n = 0x002 then .total
  else if n = 0x003 then .leaves
  else if n = 0x004 then .nodes
  else if n = 0x005 then .merges
  else if n = 0x006 then .payloadBits
  else if n = 0x007 then .outBytes
  else if n = 0x008 then .packer
  else if n = 0x009 then .encCount
  else if n = 0x00A then .errInfo
  else if 0x100 ≤ n ∧ n < 0x200 then .freq (a.setWidth 8)
  else if 0x200 ≤ n ∧ n < 0x300 then .codeLen (a.setWidth 8)
  else if 0x400 ≤ n ∧ n < 0x800 then .codeVal (a.extractLsb' 2 8) (a.setWidth 2)
  else if 0x800 ≤ n ∧ n ≤ 0x9FE then .treeRec (n - 0x800)
  else .reserved

/-- The constant of the ID register (R38). -/
def identValue : Word64 := 0x66667D6D7C75687B

/-- TREE_REC[i] (R148): the record of the i-th node in pre-order when TREE_V = 1 and i < NODES, else 0. -/
def treeRecord (i : Nat) (s : State) : Word64 :=
  match s.tree with
  | none => 0
  | some t =>
    if i < s.nodes.toNat then
      match t.preorder[i]? with
      | some n => n.record
      | none => 0
    else 0

/-- The value column of R53; fields not listed read 0. -/
def regValue : Reg → State → Word64
  | .status, s => statusReg s
  | .ident, _ => identValue
  | .total, s => s.total
  | .leaves, s => s.leaves.setWidth 64
  | .nodes, s => s.nodes.setWidth 64
  | .merges, s => s.merges.setWidth 64
  | .payloadBits, s => s.payloadBits
  | .outBytes, s => s.outBytes
  | .packer, s => (s.fill ++ s.acc).setWidth 64
  | .encCount, s => s.encCount
  | .errInfo, s => s.errInfo.setWidth 64
  | .freq b, s => tableGet s.freq b
  | .codeLen b, s => (BitVec.ofBool (present b s) ++ tableGet s.codeLen b).setWidth 64
  | .codeVal b w, s => (tableGet s.codeVal b).extractLsb' (64 * w.toNat) 64
  | .treeRec i, s => treeRecord i s
  | .reserved, _ => 0

/-- `RegRead(addr)`, exact (R52, R53). -/
def regRead (a : RegAddr) (s : State) : Word64 := regValue (Reg.ofAddr a) s

/-- The sets of registers written, command by command (R64); STATUS, which is in every set, is added in `curWrites`. -/
def commandWrites : Instr → Reg → Bool
  | .nop, _ => false
  | .clear, r => r != .ident && r != .reserved
  | .count b, r => r == .freq b || r == .total
  | .build, .leaves | .build, .nodes | .build, .merges | .build, .treeRec _ => true
  | .build, _ => false
  | .assign, .codeLen _ | .assign, .codeVal _ _ => true
  | .assign, _ => false
  | .emitHdr, r => r == .outBytes
  | .emitTree, r => r == .outBytes
  | .emitSep, r => r == .outBytes
  | .encode _, r => r == .packer || r == .payloadBits || r == .encCount || r == .outBytes
  | .flush, r => r == .outBytes || r == .packer
  | .abort, r => r == .errInfo

/-- Whether the command in CUR writes register r (R64). STATUS is written by every command. A discarded word writes nothing more (R209),
and a word that raises an error writes ERRINFO and nothing more (R64, R205; log entry 5). -/
def curWrites (s : State) (r : Reg) : Bool :=
  r == .status ||
    match decode (fetchWord s) with
    | .reject _ => s.phase != .error && r == .errInfo
    | .instr .clear => commandWrites .clear r
    | .instr i =>
      s.phase != .error &&
        match commandError i s with
        | some _ => r == .errInfo
        | none => commandWrites i r

/-- Whether a read answers with a free value: BUSY = 1 and the command in CUR writes the register (R61, R64). -/
def readIsFree (a : RegAddr) (s : State) : Bool := s.busy && curWrites s (Reg.ofAddr a)

end Sys2Proof.Machine
end

