-- ==== Sys2Proof/Machine/HostPort.lean ====
section
/-! DEFINITION. The host's steps (spec/70_reset_and_hazards.md R243, spec/20_memory.md R52, R56, R62, R66) and the end of a run (R235). -/

namespace Sys2Proof.Machine

/-- Take the turns `rest` as those still to come. -/
def withAgenda (rest : List Turn) (s : State) : State := { s with host := { s.host with agenda := rest } }

/-- The "enabled when" column of R243. The engine's turn may always be taken: the engine is idle when BUSY = 0 (R219). -/
def turnEnabled : Turn → State → Bool
  | .engine, _ => true
  | .issue _, s => cmdReady s
  | .read _, _ => true
  | .drain, s => outValid s
  | .reset, _ => true

/-- `read(a)` (R52, R64): the exact value, or a free value for a register the command in CUR writes while BUSY = 1. Only the host's own
record changes. DESIGN CHOICE (log entry 3): the free value has all 64 bits free, also those R53 does not list and I12 calls "exact: 0". -/
def readReg (a : RegAddr) (s : State) : State :=
  if readIsFree a s then
    { s with host := { s.host with
        answers := s.host.answers ++ [(a, Config.freeRead s.host.draws)], draws := s.host.draws + 1 } }
  else { s with host := { s.host with answers := s.host.answers ++ [(a, regRead a s)] } }

/-- `drain` (R56): the byte at the head of OUTQ goes to the host. -/
def drainByte (s : State) : State :=
  match s.outq with
  | [] => s
  | x :: rest => { s with outq := rest, host := { s.host with drained := s.host.drained ++ [x] } }

/-- The effect column of R243 for the host's steps. The engine's turn has no effect of the host's. -/
def hostStep : Turn → State → State
  | .engine, s => s
  | .issue w, s => latchWord w s
  | .read a, s => readReg a s
  | .drain, s => drainByte s
  | .reset, s => resetState s

/-- A run has ended (R235): BUSY = 0, OUTQ is empty, and PHASE is DONE or ERROR. -/
def runEnded (s : State) : Bool := !s.busy && s.outq.isEmpty && (s.phase == .done || s.phase == .error)

/-- What a run that has ended gave (R235). -/
inductive RunResult where
  | container (bytes : List Byte)
  | failed (err : ErrCode) (info : BitVec 35)
deriving DecidableEq, Repr

/-- The result of a run, when it has ended (R235). -/
def runResult (s : State) : Option RunResult :=
  if runEnded s then
    if s.phase = .done ∧ s.err = .none then some (.container s.host.drained) else some (.failed s.err s.errInfo)
  else none

end Sys2Proof.Machine
end

