-- ==== Sys2Proof/Machine/Step.lean ====
section
/-! DEFINITION. One step of the machine: the turn the agenda names, or the engine (spec/70_reset_and_hazards.md R243; log entry 1). -/

namespace Sys2Proof.Machine

/-- The engine's `exec` step on CUR (R85): a command runs, any other word is illegal. -/
def engineStep (s : State) : Host.Outcome State Fault Refusal :=
  match decode (fetchWord s) with
  | .instr i => exec i s
  | .reject _ => execIllegal s

/-- The engine's opportunity: it runs CUR when BUSY = 1 (R35) and otherwise stays idle with all state kept (R219). -/
def engineOrIdle (s : State) : Host.Outcome State Fault Refusal := if s.busy then engineStep s else .next s

/-- One step. An enabled host turn is taken; a host turn that is not enabled holds (R236) and the engine runs meanwhile. -/
def step (s : State) : Host.Outcome State Fault Refusal :=
  match s.host.agenda with
  | [] => engineOrIdle s
  | .engine :: rest => engineOrIdle (withAgenda rest s)
  | t :: rest => if turnEnabled t s then .next (hostStep t (withAgenda rest s)) else engineOrIdle s

/-- The state in which the very next step is the engine's on this word: the word is latched as `issue` latches it (R35), and the engine
has the next turn (log entry 6). -/
def State.withFetchWord (s : State) (nbits w : Nat) : State :=
  let s' := latchWord (BitVec.ofNat 32 (w % 2 ^ nbits)) s
  match s.host.agenda with
  | [] => s'
  | a => withAgenda (.engine :: a) s'

end Sys2Proof.Machine
end

