-- ==== Sys2Proof/Machine/Assembler.lean ====
section
/-! DEFINITION. The host-side assembler notation and its pseudo-instructions (spec/30_encoding.md R87, R88). The engine never sees them. -/

namespace Sys2Proof.Machine

/-- The value of a digit in base 16, either case. -/
def digitValue (c : Char) : Option Nat :=
  let n := c.toNat
  if 48 ≤ n ∧ n ≤ 57 then some (n - 48)
  else if 97 ≤ n ∧ n ≤ 102 then some (n - 87)
  else if 65 ≤ n ∧ n ≤ 70 then some (n - 55)
  else none

/-- A nonempty string of digits of a base, read from the left onto `acc`. -/
def digitsFrom (base : Nat) : Nat → List Char → Option Nat
  | acc, [] => some acc
  | acc, c :: cs =>
    match digitValue c with
    | none => none
    | some d => if d < base then digitsFrom base (acc * base + d) cs else none

/-- A printable ASCII character (R87; the codes are log entry 9's). -/
def isPrintable (c : Char) : Bool := 32 ≤ c.toNat && c.toNat ≤ 126

/-- An operand's three spellings (R87): a character literal of a printable ASCII character, hexadecimal, decimal. -/
def parseOperand : List Char → Option Nat
  | [] => none
  | ['\'', c, '\''] => if isPrintable c then some c.toNat else none
  | '0' :: 'x' :: d :: ds => digitsFrom 16 0 (d :: ds)
  | d :: ds => digitsFrom 10 0 (d :: ds)

/-- The text up to the comment a `;` starts (R87), where a `;` in a character literal or in a quoted string is its character and starts none
(log entry 9). `quoted` tells whether the text begins inside a string. -/
def stripFrom : Bool → List Char → List Char
  | _, [] => []
  | true, '"' :: cs => '"' :: stripFrom false cs
  | true, c :: cs => c :: stripFrom true cs
  | false, '"' :: cs => '"' :: stripFrom true cs
  | false, '\'' :: c :: '\'' :: cs => '\'' :: c :: '\'' :: stripFrom false cs
  | false, c :: cs => if c = ';' then [] else c :: stripFrom false cs

/-- A line of text without its comment (R87). -/
def stripComment (text : List Char) : List Char := stripFrom false text

/-- Spaces and tabs separate the mnemonic from the operand (log entry 9). -/
def isBlank (c : Char) : Bool := c == ' ' || c == '\t'

/-- The text without blanks at either end. -/
def trimBlanks (cs : List Char) : List Char := ((cs.dropWhile isBlank).reverse.dropWhile isBlank).reverse

/-- The characters of a string up to the quotation mark that ends it, as the bytes of their ASCII codes (R10). -/
def stringBytes : List Char → Option (List Byte)
  | [] => none
  | '"' :: cs => if cs.isEmpty then some [] else none
  | c :: cs => if isPrintable c then (stringBytes cs).map (BitVec.ofNat 8 c.toNat :: ·) else none

/-- A byte string in program text. R88 does not give its spelling: DESIGN CHOICE (log entry 9), the quoted form of R10. -/
def parseString : List Char → Option (List Byte)
  | '"' :: cs => stringBytes cs
  | _ => none

/-- A pseudo-instruction in program text (R88): `PREFIX` alone, the others with a byte string. -/
def readMacro (mnemonic : String) (operand : List Char) : Option Macro :=
  if mnemonic = "PREFIX" then if operand.isEmpty then some .pfx else none
  else match parseString operand with
    | none => none
    | some s =>
      if mnemonic = "COUNTS" then some (.counts s)
      else if mnemonic = "ENCODES" then some (.encodes s)
      else if mnemonic = "COMPRESS" then some (.compress s)
      else none

/-- What the assembler makes of one line of text (R87). -/
inductive LineResult where
  /-- Nothing but blanks and a comment. -/
  | empty
  | line (l : SourceLine)
  /-- A pseudo-instruction (R88). -/
  | pseudo (m : Macro)
  /-- The operand has none of the three spellings. -/
  | malformed
deriving DecidableEq, Repr

/-- One line of text: `MNEMONIC` or `MNEMONIC operand` (R87), or a pseudo-instruction (R88). -/
def readLine (text : List Char) : LineResult :=
  let body := trimBlanks (stripComment text)
  let mnemonic := String.ofList (body.takeWhile fun c => !isBlank c)
  let operand := trimBlanks (body.dropWhile fun c => !isBlank c)
  if body.isEmpty then .empty
  else match readMacro mnemonic operand with
    | some m => .pseudo m
    | none =>
      if operand.isEmpty then .line { mnemonic := mnemonic, operand := none }
      else match parseOperand operand with
        | none => .malformed
        | some n => .line { mnemonic := mnemonic, operand := some n }

/-- The command of a mnemonic without an operand (R84). -/
def plainCommand (m : String) : Option Instr :=
  if m = "NOP" then some .nop
  else if m = "CLEAR" then some .clear
  else if m = "BUILD" then some .build
  else if m = "ASSIGN" then some .assign
  else if m = "EMIT_HDR" then some .emitHdr
  else if m = "EMIT_TREE" then some .emitTree
  else if m = "EMIT_SEP" then some .emitSep
  else if m = "FLUSH" then some .flush
  else if m = "ABORT" then some .abort
  else none

/-- The command of a mnemonic with a byte operand (R84). -/
def byteCommand (m : String) (b : Byte) : Option Instr :=
  if m = "COUNT" then some (.count b) else if m = "ENCODE" then some (.encode b) else none

/-- The command of a line; a line that is not well formed (an operand outside 0 to 255 among them) is rejected (R87). -/
def assembleLine (l : SourceLine) : Option Instr :=
  if l.wellFormed then
    match l.operand with
    | none => plainCommand l.mnemonic
    | some n => byteCommand l.mnemonic (BitVec.ofNat 8 n)
  else none

/-- The expansion column of R88. -/
def expand : Macro → List Instr
  | .counts s => s.map .count
  | .encodes s => s.map .encode
  | .pfx => [.emitHdr, .emitTree, .emitSep]
  | .compress s => s.map .count ++ [.build, .assign] ++ [.emitHdr, .emitTree, .emitSep] ++ s.map .encode ++ [.flush]

/-- A command program, one line after the other: a command a line (R87), a pseudo-instruction as its expansion (R88). A line that is rejected
rejects the program. How a pseudo-instruction is written in program text is the model's choice (log entry 9). -/
def assemble : List (List Char) → Option (List Instr)
  | [] => some []
  | t :: ts =>
    match readLine t, assemble ts with
    | .empty, p => p
    | .pseudo m, some p => some (expand m ++ p)
    | .line l, some p => (assembleLine l).map (· :: p)
    | _, _ => none

/-- The words a host issues for a program, in order (R84, R234). -/
def programWords (p : List Instr) : List CmdWord := p.map encode

end Sys2Proof.Machine
end

