-- ==== Sys2Proof/Machine/Container.lean ====
section
/-! DEFINITION. What the emitted bytes mean, apart from the engine that emits them: the packing law (spec/44_bitpacker.md R160), the layout of
a container (spec/43_serializer.md R147), and the parse of a tree block (R149). -/

namespace Sys2Proof.Machine

/-! ### The packing law -/

/-- The bits of one code, low bit first: `v[0], …, v[n-1]` (R160). -/
def codeBits (v : CodeWord) (n : Nat) : List Bool := (List.range n).map v.getLsbD

/-- The stream S of a list of encoded bytes, under the code table of s (R160). -/
def streamOf (s : State) (bs : List Byte) : List Bool :=
  bs.flatMap fun b => codeBits (tableGet s.codeVal b) (tableGet s.codeLen b).toNat

/-- `payload[j] = Σ_{k=0..7} (8j+k < T ? S[8j+k] : 0) << k` (R160). -/
def payloadByte (bits : List Bool) (j : Nat) : Byte :=
  BitVec.ofNat 8 (((List.range 8).map fun k => if bits.getD (8 * j + k) false then 2 ^ k else 0).sum)

/-- The payload of a stream: `⌈T / 8⌉` bytes (R160). -/
def payload (bits : List Bool) : List Byte := (List.range ((bits.length + 7) / 8)).map (payloadByte bits)

/-- The bytes of a stream that are full, the ones ENCODE has emitted (R160, R161). -/
def fullBytes (bits : List Bool) : List Byte := (List.range (bits.length / 8)).map (payloadByte bits)

/-! ### The container -/

/-- A complete container (R147): MAGIC, tree block, separator, payload block. -/
def container (tree : Option Tree) (bits : List Bool) : List Byte := magic ++ treeBlock tree ++ separator ++ payload bits

/-! ### Parsing the tree block -/

/-- A tree as its records give it (R149): no ages, frequencies modulo 2^55. -/
inductive Parsed where
  | leaf (sym : Byte) (freq : BitVec 55)
  | internal (freq : BitVec 55) (left right : Parsed)
deriving DecidableEq, Repr

/-- What of a tree its records keep (R149). -/
def Tree.forget : Tree → Parsed
  | .leaf s f => .leaf s (f.setWidth 55)
  | .internal f _ l r => .internal (f.setWidth 55) (Tree.forget l) (Tree.forget r)

/-- The next 8-byte little-endian record and the bytes after it (R149). -/
def nextRecord : List Byte → Option (Word64 × List Byte)
  | b0 :: b1 :: b2 :: b3 :: b4 :: b5 :: b6 :: b7 :: rest => some (b7 ++ b6 ++ b5 ++ b4 ++ b3 ++ b2 ++ b1 ++ b0, rest)
  | _ => none

/-- `parse()` of R149, with a bound on its depth. -/
def parseWith : Nat → List Byte → Option (Parsed × List Byte)
  | 0, _ => none
  | fuel + 1, bytes =>
    match nextRecord bytes with
    | none => none
    | some (r, rest) =>
      if r.getLsbD 0 then some (.leaf (r.extractLsb' 56 8) (r.extractLsb' 1 55), rest)
      else match parseWith fuel rest with
        | none => none
        | some (l, rest') =>
          match parseWith fuel rest' with
          | none => none
          | some (rt, rest'') => some (.internal (r.extractLsb' 1 55) l rt, rest'')

/-- The parse of a byte stream that begins with a tree block (R149); no tree is deeper than its stream has bytes. -/
def parseTree (bytes : List Byte) : Option (Parsed × List Byte) := parseWith bytes.length bytes

end Sys2Proof.Machine
end

