-- ==== Sys2Proof/Safety.lean ====
section
/-! DEFINITION. The terms claims are stated in: the launch premise and the host's duties (spec/70_reset_and_hazards.md R233, R238, R241, R243),
the facts of a tree and of its codes (spec/10_state.md R29, spec/42_code_assigner.md R131), and the machine's invariants. -/

namespace Sys2Proof.Machine

/-! ### Launch premise and host duties -/

/-- `HuffReset(s)` (R233): the block is in the state of R40; its parameter and the host's side are the machine's own. -/
def HuffReset (s : State) : Prop := s = { State.reset with cfg := s.cfg, host := s.host }

/-- The bytes a list of issued words counts: the first pass (R234). -/
def countedBytes (ws : List CmdWord) : List Byte :=
  ws.filterMap fun w => match decode w with
    | .instr (.count b) => some b
    | _ => none

/-- The bytes a list of issued words encodes: the second pass (R234). -/
def encodedBytes (ws : List CmdWord) : List Byte :=
  ws.filterMap fun w => match decode w with
    | .instr (.encode b) => some b
    | _ => none

/-- `SamePasses` (R238, R243): the ENCODE bytes equal the COUNT bytes, in order. -/
def SamePasses (ws : List CmdWord) : Prop := encodedBytes ws = countedBytes ws

/-- `DrainsEventually` (R241, R243) of an infinite execution: a drain that stays enabled is taken. -/
def DrainsEventually (trace : Nat → State) : Prop :=
  ∀ n, (∀ m ≥ n, (trace m).outq ≠ []) → ∃ m ≥ n, (trace m).host.agenda.head? = some .drain

/-! ### Trees -/

/-- The leaves from left to right, each with its frequency (R29 (c)). -/
def Tree.leafPairs : Tree → List (Byte × Word64)
  | .leaf s f => [(s, f)]
  | .internal _ _ l r => Tree.leafPairs l ++ Tree.leafPairs r

/-- The ages of the internal nodes (R29 (e)). -/
def Tree.ages : Tree → List (BitVec 8)
  | .leaf _ _ => []
  | .internal _ a l r => a :: (Tree.ages l ++ Tree.ages r)

/-- Each leaf's path from the root: false for left, true for right, the root's decision first (R131). -/
def Tree.paths : Tree → List (Byte × List Bool)
  | .leaf s _ => [(s, [])]
  | .internal _ _ l r =>
    (Tree.paths l).map (fun p => (p.1, false :: p.2)) ++ (Tree.paths r).map (fun p => (p.1, true :: p.2))

/-- The total number of code bits a tree costs: depth times frequency, summed over its leaves (R120, R164). -/
def Tree.costFrom (d : Nat) : Tree → Nat
  | .leaf _ f => d * f.toNat
  | .internal _ _ l r => Tree.costFrom (d + 1) l + Tree.costFrom (d + 1) r

/-- "for any internal node, frequency == left.frequency + right.frequency" (R29 (b)), exactly, with no wrap. -/
def Tree.SumsExact : Tree → Prop
  | .leaf _ _ => True
  | .internal f _ l r => f.toNat = l.freq.toNat + r.freq.toNat ∧ Tree.SumsExact l ∧ Tree.SumsExact r

/-- `Σ_{b=0..255} FREQ[b]`, exactly (R27). -/
def freqSum (freq : ByteTable Word64) : Nat := (allBytes.map fun b => (tableGet freq b).toNat).sum

/-- The byte values that occur with their counts, in byte order (R102, R113). -/
def occurring (freq : ByteTable Word64) : List (Byte × Word64) :=
  (allBytes.filter fun b => tableGet freq b != 0).map fun b => (b, tableGet freq b)

/-- `Σ_{d} (decision_d << d)` over a path (R131). -/
def pathValue (path : List Bool) : Nat := ((List.range path.length).map fun d => if path.getD d false then 2 ^ d else 0).sum

/-- The tree facts R29 and R118 give for a table: exact sums, the leaves, the root's frequency, the ages, the node count and the depth. -/
structure TreeFor (freq : ByteTable Word64) (t : Tree) : Prop where
  sums : t.SumsExact
  leaves : t.leafPairs.Perm (occurring freq)
  root : t.freq.toNat = freqSum freq
  ages : t.ages.Perm ((List.range (leafCount freq - 1)).map (BitVec.ofNat 8))
  nodes : t.preorder.length = 2 * leafCount freq - 1
  depth : ∀ p ∈ t.paths, p.2.length ≤ leafCount freq - 1

/-! ### Command words and sequences -/

/-- The three ways a word is malformed (R203): a reserved opcode, a nonzero RSV field, or a nonzero ARG on a command other than COUNT and
ENCODE. Said on the word's bits, apart from the decoder. -/
def Malformed (w : CmdWord) : Prop :=
  0xB ≤ (w.extractLsb' 28 4).toNat ∨ w.extractLsb' 8 20 ≠ 0 ∨
    (w.extractLsb' 28 4 ≠ 0x2 ∧ w.extractLsb' 28 4 ≠ 0x8 ∧ w.extractLsb' 0 8 ≠ 0)

/-- The phases in which a command is not legal, outside ERROR (R84, the "legal in" column). -/
def WrongPhase : Instr → Phase → Prop
  | .nop, _ => False
  | .clear, _ => False
  | .count _, p => p ≠ .count
  | .build, p => p ≠ .count
  | .assign, p => p ≠ .built
  | .emitHdr, p => p ≠ .coded
  | .emitTree, p => p ≠ .hdr
  | .emitSep, p => p ≠ .tree
  | .encode _, p => p ≠ .payload
  | .flush, p => p ≠ .payload
  | .abort, _ => False

/-- Commands executed one after the other (R63). -/
def runInstrs : List Instr → State → Host.Outcome State Fault Refusal
  | [], s => .next s
  | i :: is, s =>
    match exec i s with
    | .next t => runInstrs is t
    | .fault r => .fault r
    | .refused r => .refused r

/-- The eight bits of a byte, low bit first (R59). -/
def byteBits (x : Byte) : List Bool := (List.range 8).map x.getLsbD

/-- The filled bits of ACC, low bit first (R32). -/
def heldBits (s : State) : List Bool := (List.range s.fill.toNat).map s.acc.getLsbD

/-! ### Phases -/

/-- The phases in which the code table is assigned and no error has been raised (R23). -/
def afterAssign : Phase → Bool
  | .count | .built | .error => false
  | .coded | .hdr | .tree | .payload | .done => true

/-- The phase that follows in the order of R23. -/
def nextPhase : Phase → Phase
  | .count => .built
  | .built => .coded
  | .coded => .hdr
  | .hdr => .tree
  | .tree => .payload
  | .payload => .done
  | .done => .done
  | .error => .error

/-! ### Invariants -/

/-- What holds of the registers in every state a run reaches (R24, R25, R27 to R33). -/
structure RegistersAgree (s : State) : Prop where
  /-- R27: `TOTAL = Σ FREQ[b]`, exactly. -/
  total : s.total.toNat = freqSum s.freq
  /-- R32: bits ACC[7:FILL] are 0. -/
  packer : s.acc >>> s.fill.toNat = 0#8
  /-- R24: an error code stands exactly in ERROR. -/
  err : s.err = .none ↔ s.phase ≠ .error
  /-- R25: ERRINFO is 0 until an error is raised. -/
  info : s.phase ≠ .error → s.errInfo = 0
  /-- R23, R28: no tree exists in COUNT. -/
  counting : s.phase = .count → s.tree = none
  /-- R28, R30: without a tree the three counts and the age counter are at reset, and there are no codes. -/
  noTree : s.tree = none → s.leaves = 0 ∧ s.nodes = 0 ∧ s.merges = 0 ∧ s.age = 0 ∧ s.codesV = false
  /-- R23: from BUILT on there is a tree. -/
  built : s.phase ≠ .count → s.phase ≠ .error → s.tree.isSome = true
  /-- R30, R113, R119: a tree is the one BUILD makes of the table, and the three counts describe it. -/
  hasTree : ∀ t, s.tree = some t →
    buildTree s.cfg.leftFirst s.freq = (some t, s.merges) ∧ s.age = s.merges ∧ s.leaves.toNat = leafCount s.freq ∧
      s.nodes.toNat = 2 * s.leaves.toNat - 1 ∧ s.merges.toNat = s.leaves.toNat - 1
  /-- R23, R31: outside ERROR, CODES_V tells whether ASSIGN has run. -/
  codesV : s.phase ≠ .error → s.codesV = afterAssign s.phase
  /-- R31: the code table is ASSIGN's for the tree, and all 0 before ASSIGN. -/
  codes : s.codeLen = (codesOf (if s.codesV then s.tree else none)).len ∧ s.codeVal = (codesOf (if s.codesV then s.tree else none)).val
  /-- R32, R33: before PAYLOAD the packer and its counters are at reset. -/
  idlePacker : s.phase ≠ .payload → s.phase ≠ .done → s.phase ≠ .error →
    s.acc = 0 ∧ s.fill = 0 ∧ s.payloadBits = 0 ∧ s.encCount = 0
  /-- R162: after FLUSH no partial byte is left. -/
  flushed : s.phase = .done → s.acc = 0 ∧ s.fill = 0

/-- Every byte emitted in the run so far, drained or not (R56, R235). -/
def emitted (s : State) : List Byte := s.host.drained ++ s.outq

/-- What the packer owes to the bytes encoded so far (R160, R161, R164): their stream's full bytes have been emitted after `front`, its other
bits stand in ACC, and the counters count it. -/
def PackedSoFar (front : List Byte) (s : State) : Prop :=
  ∃ bs : List Byte, (∀ b ∈ bs, tableGet s.freq b ≠ 0) ∧
    emitted s = front ++ fullBytes (streamOf s bs) ∧
    s.acc = payloadByte (streamOf s bs) ((streamOf s bs).length / 8) ∧
    s.fill.toNat = (streamOf s bs).length % 8 ∧
    s.payloadBits = BitVec.ofNat 64 (streamOf s bs).length ∧
    s.encCount = BitVec.ofNat 64 bs.length

/-- What the finished payload owes to the bytes encoded (R147, R160, R164): the container is complete. -/
def PackedWhole (s : State) : Prop :=
  ∃ bs : List Byte, (∀ b ∈ bs, tableGet s.freq b ≠ 0) ∧
    emitted s = container s.tree (streamOf s bs) ∧
    s.payloadBits = BitVec.ofNat 64 (streamOf s bs).length ∧
    s.encCount = BitVec.ofNat 64 bs.length

/-- What has been emitted in each phase (R147, R220, R221), with OUT_BYTES its count modulo 2^64 (R34). -/
structure OutputIsContainerPrefix (s : State) : Prop where
  before : s.phase = .count ∨ s.phase = .built ∨ s.phase = .coded → emitted s = []
  hdr : s.phase = .hdr → emitted s = magic
  tree : s.phase = .tree → emitted s = magic ++ treeBlock s.tree
  payload : s.phase = .payload → PackedSoFar (magic ++ treeBlock s.tree ++ separator) s
  done : s.phase = .done → PackedWhole s
  idlePacker : s.phase ≠ .payload → s.phase ≠ .done → s.phase ≠ .error →
    s.acc = 0 ∧ s.fill = 0 ∧ s.payloadBits = 0 ∧ s.encCount = 0
  outBytes : s.outBytes = BitVec.ofNat 64 (emitted s).length

end Sys2Proof.Machine
end

