-- ==== Sys2Proof/Certificates/Slice0/Obligations.lean ====
section
/-! DEFINITION. The statements about the model, one `def Obligations.<Name> : Prop` each. Every docstring names the rule of spec/ it formalises. -/

open Sys2Proof Sys2Proof.Machine

/-! ### Encoding and decoding -/

/-- R84 (word patterns), R85: a word decodes to a command exactly when it is that command's word, with every operand value. -/
def Obligations.DecodeInvertsEncode : Prop :=
  ∀ (w : CmdWord) (i : Instr), decode w = .instr i ↔ w = encode i

/-- R84: some words, written out from the opcode map, decode to the commands they stand for. -/
def Obligations.PatternWordsDecode : Prop :=
  decode 0x00000000 = .instr .nop ∧ decode 0x10000000 = .instr .clear ∧ decode 0x20000061 = .instr (.count 0x61) ∧
    decode 0x30000000 = .instr .build ∧ decode 0x40000000 = .instr .assign ∧ decode 0x50000000 = .instr .emitHdr ∧
    decode 0x60000000 = .instr .emitTree ∧ decode 0x70000000 = .instr .emitSep ∧ decode 0x800000FF = .instr (.encode 0xFF) ∧
    decode 0x90000000 = .instr .flush ∧ decode 0xA0000000 = .instr .abort

/-- R203: outside ERROR a malformed word raises ILLEGAL_COMMAND in every phase, before the phase is looked at, and any other word is run as the
command it decodes to. -/
def Obligations.MalformedWordsAreIllegal : Prop :=
  ∀ s : State, s.phase ≠ .error →
    (Malformed s.cur → engineStep s =
      .next { s with errInfo := s.phase.bits ++ s.cur, err := .illegalCommand, phase := .error, busy := false }) ∧
    (¬ Malformed s.cur → ∃ i, decode s.cur = .instr i ∧ engineStep s = exec i s)

/-- R86: OPC 0xB to 0xF raises ILLEGAL_COMMAND outside ERROR and is discarded in ERROR, and a word with the NOP opcode other than 0x00000000 is
illegal: no other word decodes to NOP. -/
def Obligations.ReservedOpcodesAndNopWord : Prop :=
  (∀ s : State, 0xB ≤ (s.cur.extractLsb' 28 4).toNat → s.phase ≠ .error → engineStep s =
    .next { s with errInfo := s.phase.bits ++ s.cur, err := .illegalCommand, phase := .error, busy := false }) ∧
  (∀ s : State, 0xB ≤ (s.cur.extractLsb' 28 4).toNat → s.phase = .error → engineStep s = .next { s with busy := false }) ∧
  (∀ s : State, s.cur.extractLsb' 28 4 = 0x0 → s.cur ≠ 0x00000000 → s.phase ≠ .error → engineStep s =
    .next { s with errInfo := s.phase.bits ++ s.cur, err := .illegalCommand, phase := .error, busy := false }) ∧
  (∀ w : CmdWord, decode w = .instr .nop → w = 0x00000000)

/-! ### One step -/

/-- R35, R85, R243 (in the agenda's form, log entry 1): when the engine has the turn and BUSY = 1, the step is `exec` of the command CUR decodes to: with an empty agenda, with the
engine's own turn first (which is used up), and with a held `issue` first (which stays). -/
def Obligations.StepRunsDecodedCommand : Prop :=
  ∀ (s : State) (i : Instr) (rest : List Turn) (w : CmdWord), s.busy = true → decode s.cur = .instr i →
    (s.host.agenda = [] → step s = exec i s) ∧
    (s.host.agenda = .engine :: rest → step s = exec i { s with host := { s.host with agenda := rest } }) ∧
    (s.host.agenda = .issue w :: rest → step s = exec i s)

/-- R85: every word of every state completes its `exec` step with BUSY = 0. That no step of the machine stops is partly the model's form
(log entry 1): where R243 enables no step, an idle step or a hold changes nothing and answers next. -/
def Obligations.EveryWordCompletes : Prop :=
  (∀ s : State, ∃ t, engineStep s = .next t ∧ t.busy = false) ∧ (∀ s : State, ∃ t, step s = .next t)

/-- R23: one `exec` step keeps the phase, goes to the next phase of the order, enters ERROR, or (CLEAR) goes to COUNT. -/
def Obligations.PhaseFollowsStageOrder : Prop :=
  ∀ s t : State, engineStep s = .next t →
    t.phase = s.phase ∨ t.phase = nextPhase s.phase ∨ t.phase = .error ∨ (t.phase = .count ∧ s.cur = 0x10000000)

/-- R23 to R35 ("only … writes"), R84 (next phase): which command words may change which piece of state in an `exec` step, PHASE and the output
included; CLEAR may change all. That the parameters and the host's side are kept is the model's form (log entries 1 and 4). -/
def Obligations.OnlyOwnersWriteState : Prop :=
  ∀ s t : State, engineStep s = .next t → s.cur ≠ 0x10000000 →
    (t.freq ≠ s.freq ∨ t.total ≠ s.total → (∃ b, s.cur = encode (.count b)) ∧ s.phase = .count) ∧
    (t.tree ≠ s.tree ∨ t.leaves ≠ s.leaves ∨ t.nodes ≠ s.nodes ∨ t.merges ≠ s.merges ∨ t.age ≠ s.age →
      s.cur = encode .build ∧ s.phase = .count) ∧
    (t.codesV ≠ s.codesV ∨ t.codeLen ≠ s.codeLen ∨ t.codeVal ≠ s.codeVal → s.cur = encode .assign ∧ s.phase = .built) ∧
    (t.acc ≠ s.acc ∨ t.fill ≠ s.fill → ((∃ b, s.cur = encode (.encode b)) ∨ s.cur = encode .flush) ∧ s.phase = .payload) ∧
    (t.payloadBits ≠ s.payloadBits ∨ t.encCount ≠ s.encCount → (∃ b, s.cur = encode (.encode b)) ∧ s.phase = .payload) ∧
    (t.outq ≠ s.outq ∨ t.outBytes ≠ s.outBytes →
      (s.cur = encode .emitHdr ∧ s.phase = .coded) ∨ (s.cur = encode .emitTree ∧ s.phase = .hdr) ∨
      (s.cur = encode .emitSep ∧ s.phase = .tree) ∨
      (((∃ b, s.cur = encode (.encode b)) ∨ s.cur = encode .flush) ∧ s.phase = .payload)) ∧
    (t.phase ≠ s.phase →
      (s.phase ≠ .error ∧ t.phase = .error) ∨
      (s.cur = encode .build ∧ s.phase = .count ∧ t.phase = .built) ∨ (s.cur = encode .assign ∧ s.phase = .built ∧ t.phase = .coded) ∨
      (s.cur = encode .emitHdr ∧ s.phase = .coded ∧ t.phase = .hdr) ∨ (s.cur = encode .emitTree ∧ s.phase = .hdr ∧ t.phase = .tree) ∨
      (s.cur = encode .emitSep ∧ s.phase = .tree ∧ t.phase = .payload) ∨
      (s.cur = encode .flush ∧ s.phase = .payload ∧ t.phase = .done)) ∧
    (t.err ≠ s.err ∨ t.errInfo ≠ s.errInfo → t.phase = .error ∧ s.phase ≠ .error) ∧
    t.busy = false ∧ t.cur = s.cur ∧ t.cfg = s.cfg ∧ t.host = s.host

/-! ### Errors -/

/-- R205: an `exec` step that enters ERROR changes ERRINFO, ERR, PHASE and BUSY and nothing else, and `err_o` rises. -/
def Obligations.ErrorEntryIsPrecise : Prop :=
  ∀ s t : State, engineStep s = .next t → s.phase ≠ .error → t.phase = .error →
    (∃ e : ErrCode, e ≠ .none ∧
      t = { s with errInfo := s.phase.bits ++ s.cur, err := e, phase := .error, busy := false }) ∧ errO t = true

/-- R204: outside ERROR a well-formed command whose phase is wrong raises SEQUENCE_ERROR, whatever its own conditions. -/
def Obligations.WrongPhaseIsSequenceError : Prop :=
  ∀ (s : State) (i : Instr), s.phase ≠ .error → WrongPhase i s.phase → exec i s =
    .next { s with errInfo := s.phase.bits ++ s.cur, err := .sequenceError, phase := .error, busy := false }

/-- R208: the error that is raised is the first in the order of priority: format, then phase, then the command's own condition. -/
def Obligations.ErrorsFollowPriority : Prop :=
  ∀ s t : State, engineStep s = .next t → s.phase ≠ .error → t.phase = .error →
    (Malformed s.cur → t.err = .illegalCommand) ∧
    (∀ i, decode s.cur = .instr i → WrongPhase i s.phase → t.err = .sequenceError) ∧
    (∀ i, decode s.cur = .instr i → ¬ WrongPhase i s.phase →
      (i = .build ∧ s.total = 0 ∧ t.err = .emptyInput) ∨
      (∃ b, i = .encode b ∧ tableGet s.freq b = 0 ∧ t.err = .symbolAbsent) ∨
      (∃ b, i = .count b ∧ s.total = BitVec.allOnes 64 ∧ t.err = .countOverflow) ∨
      (i = .abort ∧ t.err = .ioFailure))

/-- R209: in ERROR every word other than exactly 0x10000000 is discarded with no effect but BUSY falling, NOP, ABORT and malformed words
among them; so ERR and ERRINFO stay. -/
def Obligations.ErrorStateDiscardsWords : Prop :=
  ∀ s : State, s.phase = .error → s.cur ≠ 0x10000000 → engineStep s = .next { s with busy := false }

/-- R210, R24 (a reset is the agenda's turn, log entry 1): only CLEAR and reset leave ERROR, both to the reset state; every other step keeps ERR and ERRINFO. -/
def Obligations.OnlyClearAndResetLeaveError : Prop :=
  ∀ s t : State, step s = .next t → s.phase = .error →
    (t.phase ≠ .error → ((s.busy = true ∧ s.cur = 0x10000000) ∨ s.host.agenda.head? = some .reset) ∧ HuffReset t) ∧
    (t.phase = .error → t.err = s.err ∧ t.errInfo = s.errInfo)

/-- R116: in a state a run reaches, all frequencies are 0 exactly when TOTAL = 0, and then BUILD raises EMPTY_INPUT and builds nothing. -/
def Obligations.BuildOnEmptyInput : Prop :=
  ∀ s : State, RegistersAgree s → s.phase = .count →
    ((∀ b, tableGet s.freq b = 0) ↔ s.total = 0) ∧
    (s.total = 0 → exec .build s =
      .next { s with errInfo := s.phase.bits ++ s.cur, err := .emptyInput, phase := .error, busy := false })

/-- R220: EMPTY_INPUT is raised only before any byte of the container is emitted. -/
def Obligations.EmptyInputPrecedesOutput : Prop :=
  ∀ s t : State, OutputIsContainerPrefix s → engineStep s = .next t → s.phase ≠ .error → t.phase = .error → t.err = .emptyInput →
    s.cur = encode .build ∧ emitted t = []

/-! ### The commands -/

/-- R180: NOP changes nothing but BUSY, in every phase; every other word with its opcode is ILLEGAL_COMMAND outside ERROR. -/
def Obligations.NopChangesNothing : Prop :=
  (∀ s : State, exec .nop s = .next { s with busy := false }) ∧ encode .nop = 0x00000000 ∧
  (∀ s : State, s.phase ≠ .error → s.cur.extractLsb' 28 4 = 0x0 → s.cur ≠ 0x00000000 → engineStep s =
    .next { s with errInfo := s.phase.bits ++ s.cur, err := .illegalCommand, phase := .error, busy := false })

/-- R181: CLEAR, in every phase, gives the reset state and STATUS = 0; a malformed CLEAR is ILLEGAL_COMMAND outside ERROR and discarded in it.
That the parameters and the host's own agenda are kept is the model's form (log entries 1 and 4). -/
def Obligations.ClearRestoresReset : Prop :=
  (∀ s : State, ∃ t, exec .clear s = .next t ∧ HuffReset t ∧ statusReg t = 0 ∧ t.cfg = s.cfg ∧ t.host.agenda = s.host.agenda) ∧
  encode .clear = 0x10000000 ∧
  (∀ s : State, s.phase ≠ .error → s.cur.extractLsb' 28 4 = 0x1 → s.cur ≠ 0x10000000 → engineStep s =
    .next { s with errInfo := s.phase.bits ++ s.cur, err := .illegalCommand, phase := .error, busy := false }) ∧
  (∀ s : State, s.phase = .error → s.cur.extractLsb' 28 4 = 0x1 → s.cur ≠ 0x10000000 → engineStep s = .next { s with busy := false })

/-- R100: COUNT b adds one to FREQ[b] and to TOTAL and changes nothing else but BUSY; with TOTAL = 2^64 - 1 it raises COUNT_OVERFLOW, outside
phase COUNT SEQUENCE_ERROR, and with a nonzero RSV ILLEGAL_COMMAND. -/
def Obligations.CountAddsOneOccurrence : Prop :=
  (∀ (b : Byte) (s : State), s.phase = .count → s.total ≠ BitVec.allOnes 64 → ∃ t, exec (.count b) s = .next t ∧
    tableGet t.freq b = tableGet s.freq b + 1 ∧ (∀ c, c ≠ b → tableGet t.freq c = tableGet s.freq c) ∧
    t = { s with freq := t.freq, total := s.total + 1, busy := false }) ∧
  (∀ (b : Byte) (s : State), s.phase = .count → s.total = BitVec.allOnes 64 → exec (.count b) s =
    .next { s with errInfo := s.phase.bits ++ s.cur, err := .countOverflow, phase := .error, busy := false }) ∧
  (∀ (b : Byte) (s : State), s.phase ≠ .count → s.phase ≠ .error → exec (.count b) s =
    .next { s with errInfo := s.phase.bits ++ s.cur, err := .sequenceError, phase := .error, busy := false }) ∧
  (∀ s : State, s.phase ≠ .error → s.cur.extractLsb' 28 4 = 0x2 → s.cur.extractLsb' 8 20 ≠ 0 → engineStep s =
    .next { s with errInfo := s.phase.bits ++ s.cur, err := .illegalCommand, phase := .error, busy := false }) ∧
  (∀ b : Byte, encode (.count b) = 0x200000#24 ++ b)

/-- R101: the table after a list of COUNT commands depends only on how often each byte value is counted, not on their order. -/
def Obligations.CountOrderIsIrrelevant : Prop :=
  ∀ (bs cs : List Byte) (s : State), bs.Perm cs → s.phase = .count → s.total.toNat + bs.length < 2 ^ 64 →
    ∃ t, runInstrs (bs.map .count) s = .next t ∧ runInstrs (cs.map .count) s = .next t ∧
      ∀ b, tableGet t.freq b = tableGet s.freq b + BitVec.ofNat 64 (bs.count b)

/-- R113: BUILD in phase COUNT with TOTAL ≠ 0 stores the tree the merge loop makes of FREQ, the three counts and phase BUILT, emits nothing and
leaves FREQ and all other state unchanged; in any other phase but ERROR it raises SEQUENCE_ERROR, and a malformed word ILLEGAL_COMMAND. The
build starts from one leaf for each occurring byte with age 0 (R102, R115); one round takes the least candidate n1, then the least n2 of the
rest, and puts their merge with the age in place of both; the loop ends when one candidate is left. With TOTAL ≠ 0 and every FREQ 0, which no
run reaches, what it stores is the model's choice (log entry 13). -/
def Obligations.BuildStoresTheMergedTree : Prop :=
  (∀ s : State, s.phase = .count → s.total ≠ 0 → exec .build s =
    .next { s with
      tree := (buildTree s.cfg.leftFirst s.freq).1
      leaves := BitVec.ofNat 9 (leafCount s.freq)
      nodes := BitVec.ofNat 10 (2 * leafCount s.freq - 1)
      merges := (buildTree s.cfg.leftFirst s.freq).2
      age := (buildTree s.cfg.leftFirst s.freq).2
      phase := .built
      busy := false }) ∧
  (∀ (lf : Bool) (freq : ByteTable Word64),
    buildTree lf freq =
      ((mergeLoop lf (leafCount freq) 0 ((occurring freq).map fun p => .leaf p.1 p.2)).1.head?,
        (mergeLoop lf (leafCount freq) 0 ((occurring freq).map fun p => .leaf p.1 p.2)).2)) ∧
  (∀ (lf : Bool) (k : Nat) (age : BitVec 8) (c c1 c2 : List Tree) (n1 n2 : Tree),
    takeLeast c = some (n1, c1) → takeLeast c1 = some (n2, c2) →
    mergeLoop lf (k + 1) age c = mergeLoop lf k (age + 1) (merge lf n1 n2 age :: c2)) ∧
  (∀ (lf : Bool) (k : Nat) (age : BitVec 8) (c : List Tree), c.length ≤ 1 → mergeLoop lf k age c = (c, age)) ∧
  (∀ s : State, s.phase = .count → s.total = 0 → exec .build s =
    .next { s with errInfo := s.phase.bits ++ s.cur, err := .emptyInput, phase := .error, busy := false }) ∧
  (∀ s : State, s.phase ≠ .count → s.phase ≠ .error → exec .build s =
    .next { s with errInfo := s.phase.bits ++ s.cur, err := .sequenceError, phase := .error, busy := false }) ∧
  (∀ s : State, s.phase ≠ .error → s.cur.extractLsb' 28 4 = 0x3 → s.cur ≠ 0x30000000 → engineStep s =
    .next { s with errInfo := s.phase.bits ++ s.cur, err := .illegalCommand, phase := .error, busy := false }) ∧
  encode .build = 0x30000000

/-- R130: ASSIGN in phase BUILT writes the code table of the walk, CODES_V and phase CODED, and nothing else but BUSY. What it does
without a tree, in states no run reaches, is the model's choice (log entry 13). -/
def Obligations.AssignWritesTheWalk : Prop :=
  (∀ (s : State) (t : Tree), s.phase = .built → s.tree = some t → exec .assign s =
    .next { s with
      codeLen := (walk t 0 0 { len := Vector.replicate 256 0, val := Vector.replicate 256 0 }).len
      codeVal := (walk t 0 0 { len := Vector.replicate 256 0, val := Vector.replicate 256 0 }).val
      codesV := true
      phase := .coded
      busy := false }) ∧
  (∀ (s : State), s.phase = .built → s.tree = none → exec .assign s =
    .next { s with codeLen := Vector.replicate 256 0, codeVal := Vector.replicate 256 0, codesV := true, phase := .coded, busy := false }) ∧
  (∀ s : State, s.phase ≠ .built → s.phase ≠ .error → exec .assign s =
    .next { s with errInfo := s.phase.bits ++ s.cur, err := .sequenceError, phase := .error, busy := false }) ∧
  (∀ s : State, s.phase ≠ .error → s.cur.extractLsb' 28 4 = 0x4 → s.cur ≠ 0x40000000 → engineStep s =
    .next { s with errInfo := s.phase.bits ++ s.cur, err := .illegalCommand, phase := .error, busy := false }) ∧
  encode .assign = 0x40000000

/-- R143, R142: EMIT_HDR in phase CODED emits the eight magic bytes in order, counts them in OUT_BYTES and goes to HDR; nothing else changes. -/
def Obligations.EmitHdrEmitsMagic : Prop :=
  (∀ s : State, s.phase = .coded → exec .emitHdr s =
    .next { s with
      outq := s.outq ++ [0x7B, 0x68, 0x75, 0x7C, 0x6D, 0x7D, 0x66, 0x66]
      outBytes := s.outBytes + 8
      phase := .hdr
      busy := false }) ∧
  (∀ s : State, s.phase ≠ .coded → s.phase ≠ .error → exec .emitHdr s =
    .next { s with errInfo := s.phase.bits ++ s.cur, err := .sequenceError, phase := .error, busy := false }) ∧
  (∀ s : State, s.phase ≠ .error → s.cur.extractLsb' 28 4 = 0x5 → s.cur ≠ 0x50000000 → engineStep s =
    .next { s with errInfo := s.phase.bits ++ s.cur, err := .illegalCommand, phase := .error, busy := false }) ∧
  encode .emitHdr = 0x50000000

/-- R144: EMIT_TREE in phase HDR emits, node by node in pre-order, the eight bytes of each record with the least significant first, counts them
in OUT_BYTES (8·NODES of them in a state a run reaches) and goes to TREE; nothing else changes. What it does
without a tree is the model's choice (log entry 13). -/
def Obligations.EmitTreeEmitsRecords : Prop :=
  (∀ (s : State) (t : Tree), s.phase = .hdr → s.tree = some t → exec .emitTree s =
    .next { s with
      outq := s.outq ++ t.preorder.flatMap fun n =>
        [n.record.extractLsb' 0 8, n.record.extractLsb' 8 8, n.record.extractLsb' 16 8, n.record.extractLsb' 24 8,
          n.record.extractLsb' 32 8, n.record.extractLsb' 40 8, n.record.extractLsb' 48 8, n.record.extractLsb' 56 8]
      outBytes := s.outBytes + BitVec.ofNat 64 (8 * t.preorder.length)
      phase := .tree
      busy := false }) ∧
  (∀ (s : State) (t : Tree), RegistersAgree s → s.tree = some t → 8 * t.preorder.length = 8 * s.nodes.toNat) ∧
  (∀ s : State, s.phase = .hdr → s.tree = none → exec .emitTree s = .next { s with phase := .tree, busy := false }) ∧
  (∀ s : State, s.phase ≠ .hdr → s.phase ≠ .error → exec .emitTree s =
    .next { s with errInfo := s.phase.bits ++ s.cur, err := .sequenceError, phase := .error, busy := false }) ∧
  (∀ s : State, s.phase ≠ .error → s.cur.extractLsb' 28 4 = 0x6 → s.cur ≠ 0x60000000 → engineStep s =
    .next { s with errInfo := s.phase.bits ++ s.cur, err := .illegalCommand, phase := .error, busy := false }) ∧
  encode .emitTree = 0x60000000

/-- R145: EMIT_SEP in phase TREE emits eight zero bytes, counts them in OUT_BYTES and goes to PAYLOAD; nothing else changes. -/
def Obligations.EmitSepEmitsZeros : Prop :=
  (∀ s : State, s.phase = .tree → exec .emitSep s =
    .next { s with outq := s.outq ++ [0, 0, 0, 0, 0, 0, 0, 0], outBytes := s.outBytes + 8, phase := .payload, busy := false }) ∧
  (∀ s : State, s.phase ≠ .tree → s.phase ≠ .error → exec .emitSep s =
    .next { s with errInfo := s.phase.bits ++ s.cur, err := .sequenceError, phase := .error, busy := false }) ∧
  (∀ s : State, s.phase ≠ .error → s.cur.extractLsb' 28 4 = 0x7 → s.cur ≠ 0x70000000 → engineStep s =
    .next { s with errInfo := s.phase.bits ++ s.cur, err := .illegalCommand, phase := .error, busy := false }) ∧
  encode .emitSep = 0x70000000

/-- R161: ENCODE b, in phase PAYLOAD with FREQ[b] ≠ 0, appends the code's bits to the held bits: the bytes that become full are emitted, the
others stay in ACC; with F the FILL before and L the code's length it emits (F + L) / 8 bytes and leaves FILL = (F + L) mod 8. The two
diagnostic counters count it, and nothing else changes. With FREQ[b] = 0 it raises SYMBOL_ABSENT. -/
def Obligations.EncodeAppendsTheCode : Prop :=
  (∀ (b : Byte) (s : State), s.phase = .payload → tableGet s.freq b ≠ 0 → s.acc >>> s.fill.toNat = 0#8 →
    ∃ (out : List Byte) (t : State), exec (.encode b) s = .next t ∧
      t = { s with
        payloadBits := s.payloadBits + (tableGet s.codeLen b).setWidth 64
        encCount := s.encCount + 1
        acc := t.acc
        fill := t.fill
        outq := s.outq ++ out
        outBytes := s.outBytes + BitVec.ofNat 64 out.length
        busy := false } ∧
      out.length = (s.fill.toNat + (tableGet s.codeLen b).toNat) / 8 ∧
      t.fill.toNat = (s.fill.toNat + (tableGet s.codeLen b).toNat) % 8 ∧
      out.flatMap byteBits ++ heldBits t = heldBits s ++ codeBits (tableGet s.codeVal b) (tableGet s.codeLen b).toNat ∧
      t.acc >>> t.fill.toNat = 0#8) ∧
  (∀ (b : Byte) (s : State), s.phase = .payload → tableGet s.freq b ≠ 0 → ∃ t, exec (.encode b) s = .next t ∧ t.phase = .payload) ∧
  (∀ (b : Byte) (s : State), s.phase = .payload → tableGet s.freq b = 0 → exec (.encode b) s =
    .next { s with errInfo := s.phase.bits ++ s.cur, err := .symbolAbsent, phase := .error, busy := false }) ∧
  (∀ (b : Byte) (s : State), s.phase ≠ .payload → s.phase ≠ .error → exec (.encode b) s =
    .next { s with errInfo := s.phase.bits ++ s.cur, err := .sequenceError, phase := .error, busy := false }) ∧
  (∀ s : State, s.phase ≠ .error → s.cur.extractLsb' 28 4 = 0x8 → s.cur.extractLsb' 8 20 ≠ 0 → engineStep s =
    .next { s with errInfo := s.phase.bits ++ s.cur, err := .illegalCommand, phase := .error, busy := false }) ∧
  (∀ b : Byte, encode (.encode b) = 0x800000#24 ++ b)

/-- R162: FLUSH in phase PAYLOAD emits ACC as it stands when FILL ≠ 0, with the bits above FILL 0, and nothing when FILL = 0; it goes to DONE
with ACC and FILL 0; nothing else changes. -/
def Obligations.FlushEmitsThePartialByte : Prop :=
  (∀ s : State, s.phase = .payload → s.fill ≠ 0 → exec .flush s =
    .next { s with outq := s.outq ++ [s.acc], outBytes := s.outBytes + 1, acc := 0, fill := 0, phase := .done, busy := false }) ∧
  (∀ s : State, s.phase = .payload → s.fill = 0 → exec .flush s = .next { s with phase := .done, busy := false }) ∧
  (∀ s : State, RegistersAgree s → ∀ k, s.fill.toNat ≤ k → s.acc.getLsbD k = false) ∧
  (∀ s : State, s.phase ≠ .payload → s.phase ≠ .error → exec .flush s =
    .next { s with errInfo := s.phase.bits ++ s.cur, err := .sequenceError, phase := .error, busy := false }) ∧
  (∀ s : State, s.phase ≠ .error → s.cur.extractLsb' 28 4 = 0x9 → s.cur ≠ 0x90000000 → engineStep s =
    .next { s with errInfo := s.phase.bits ++ s.cur, err := .illegalCommand, phase := .error, busy := false }) ∧
  encode .flush = 0x90000000

/-- R182: ABORT outside ERROR enters ERROR with IO_FAILURE and the phase and word in ERRINFO, and `err_o` rises; in ERROR it is discarded. -/
def Obligations.AbortReportsIoFailure : Prop :=
  (∀ s : State, s.phase ≠ .error → exec .abort s =
    .next { s with errInfo := s.phase.bits ++ s.cur, err := .ioFailure, phase := .error, busy := false }) ∧
  (∀ s t : State, s.phase ≠ .error → exec .abort s = .next t → errO t = true ∧ t.phase.bits = 7 ∧ t.err.bits = 2) ∧
  (∀ s : State, s.phase = .error → exec .abort s = .next { s with busy := false }) ∧
  (∀ s : State, s.phase ≠ .error → s.cur.extractLsb' 28 4 = 0xA → s.cur ≠ 0xA0000000 → engineStep s =
    .next { s with errInfo := s.phase.bits ++ s.cur, err := .illegalCommand, phase := .error, busy := false }) ∧
  encode .abort = 0xA0000000

/-! ### The host's steps -/

/-- R62 (in the agenda's form, log entry 1): `issue(w)` latches the word and raises BUSY when BUSY = 0; while BUSY = 1 the host holds: the engine steps and the word stays offered. -/
def Obligations.IssueWaitsForReady : Prop :=
  ∀ (s : State) (w : CmdWord) (rest : List Turn), s.host.agenda = .issue w :: rest →
    (s.busy = false → step s = .next { s with cur := w, busy := true, host := { s.host with agenda := rest } }) ∧
    (s.busy = true → step s = engineStep s ∧ ∀ t, step s = .next t → t.host.agenda = .issue w :: rest)

/-- R56, R57 (in the agenda's form, log entries 1 and 2): Emit appends at the tail and counts modulo 2^64; `drain` hands over the head byte; and no step alters, drops or repeats a byte
between the two, except that reset and CLEAR empty OUTQ: the bytes drained followed by the bytes queued only ever grow at the end. -/
def Obligations.OutputIsFirstInFirstOut : Prop :=
  (∀ (x : Byte) (s : State), emit x s = { s with outq := s.outq ++ [x], outBytes := s.outBytes + 1 }) ∧
  (∀ (s : State) (x : Byte) (q : List Byte) (rest : List Turn), s.host.agenda = .drain :: rest → s.outq = x :: q → step s =
    .next { s with outq := q, host := { s.host with agenda := rest, drained := s.host.drained ++ [x] } }) ∧
  (∀ s t : State, step s = .next t → (∃ new, emitted t = emitted s ++ new) ∨
    (t.outq = [] ∧ HuffReset t ∧ ((s.busy = true ∧ s.cur = 0x10000000) ∨ s.host.agenda.head? = some .reset)))

/-- R230, R231: reset, in every phase and also while BUSY = 1, puts every piece of state into its reset value at once: the command in CUR is
abandoned, OUTQ is empty, `cmd_ready` = 1 and `err_o` = 0. That the parameters and the rest of the agenda are kept is the model's form (log
entries 1 and 4). -/
def Obligations.ResetTakesEffectAtOnce : Prop :=
  ∀ (s : State) (rest : List Turn), s.host.agenda = .reset :: rest →
    ∃ t, step s = .next t ∧ HuffReset t ∧ t.outq = [] ∧ cmdReady t = true ∧ errO t = false ∧ t.cfg = s.cfg ∧ t.host.agenda = rest

/-- R52 (in the agenda's form, log entry 1): a read answers with one 64-bit value, exact when BUSY = 0, changes no state of the block, and never faults or stalls. -/
def Obligations.ReadsAreSilentAndExact : Prop :=
  ∀ (s : State) (a : RegAddr) (rest : List Turn), s.host.agenda = .read a :: rest →
    ∃ (v : Word64) (n : Nat), step s =
      .next { s with host := { s.host with agenda := rest, answers := s.host.answers ++ [(a, v)], draws := n } } ∧
      (s.busy = false → v = regRead a s)

/-- R64: while BUSY = 1, which addresses may answer with any value: those of the registers the command in CUR writes. Every other read is exact.
(That a word that raises an error writes STATUS and ERRINFO alone, and NOP and a word that ERROR discards STATUS alone, is log entry 5; that the
free value may differ from 0 in the bits a register does not list is log entry 3.) -/
def Obligations.BusyReadsAreFreeOnlyWhereWritten : Prop :=
  (∀ (s : State) (a : RegAddr), s.busy = false → readIsFree a s = false) ∧
  (∀ (s : State) (a : RegAddr) (b : Byte), s.busy = true → s.phase = .count → s.total ≠ BitVec.allOnes 64 → s.cur = encode (.count b) →
    (readIsFree a s = true ↔ a = 0x000 ∨ a = 0x002 ∨ a = 0x100 + b.setWidth 12)) ∧
  (∀ (s : State) (a : RegAddr), s.busy = true → s.phase = .count → s.total ≠ 0 → s.cur = encode .build →
    (readIsFree a s = true ↔ a = 0x000 ∨ a = 0x003 ∨ a = 0x004 ∨ a = 0x005 ∨ (0x800 ≤ a.toNat ∧ a.toNat ≤ 0x9FE))) ∧
  (∀ (s : State) (a : RegAddr), s.busy = true → s.phase = .built → s.cur = encode .assign →
    (readIsFree a s = true ↔ a = 0x000 ∨ (0x200 ≤ a.toNat ∧ a.toNat ≤ 0x2FF) ∨ (0x400 ≤ a.toNat ∧ a.toNat ≤ 0x7FF))) ∧
  (∀ (s : State) (a : RegAddr), s.busy = true →
    (s.phase = .coded ∧ s.cur = encode .emitHdr ∨ s.phase = .hdr ∧ s.cur = encode .emitTree ∨ s.phase = .tree ∧ s.cur = encode .emitSep) →
    (readIsFree a s = true ↔ a = 0x000 ∨ a = 0x007)) ∧
  (∀ (s : State) (a : RegAddr), s.busy = true → s.phase = .payload → s.cur = encode .flush →
    (readIsFree a s = true ↔ a = 0x000 ∨ a = 0x007 ∨ a = 0x008)) ∧
  (∀ (s : State) (a : RegAddr) (b : Byte), s.busy = true → s.phase = .payload → tableGet s.freq b ≠ 0 → s.cur = encode (.encode b) →
    (readIsFree a s = true ↔ a = 0x000 ∨ a = 0x006 ∨ a = 0x007 ∨ a = 0x008 ∨ a = 0x009)) ∧
  (∀ (s : State) (a : RegAddr), s.busy = true → s.cur = encode .clear →
    (readIsFree a s = true ↔ a ≠ 0x001 ∧ ¬ (0x00B ≤ a.toNat ∧ a.toNat ≤ 0x0FF) ∧ ¬ (0x300 ≤ a.toNat ∧ a.toNat ≤ 0x3FF) ∧ a.toNat < 0x9FF)) ∧
  (∀ (s : State) (a : RegAddr), s.busy = true → s.phase ≠ .error → s.cur = encode .abort ∨ Malformed s.cur →
    (readIsFree a s = true ↔ a = 0x000 ∨ a = 0x00A)) ∧
  (∀ (s : State) (a : RegAddr), s.busy = true → s.phase ≠ .error →
    (∃ i, decode s.cur = .instr i ∧ WrongPhase i s.phase) ∨ (s.cur = encode .build ∧ s.phase = .count ∧ s.total = 0) ∨
      (∃ b, s.cur = encode (.encode b) ∧ s.phase = .payload ∧ tableGet s.freq b = 0) ∨
      (∃ b, s.cur = encode (.count b) ∧ s.phase = .count ∧ s.total = BitVec.allOnes 64) →
    (readIsFree a s = true ↔ a = 0x000 ∨ a = 0x00A)) ∧
  (∀ (s : State) (a : RegAddr), s.busy = true → s.phase = .error → s.cur ≠ 0x10000000 → (readIsFree a s = true ↔ a = 0x000)) ∧
  (∀ (s : State) (a : RegAddr), s.busy = true → s.cur = encode .nop → (readIsFree a s = true ↔ a = 0x000)) ∧
  (∀ (s : State) (a : RegAddr) (rest : List Turn), s.host.agenda = .read a :: rest → readIsFree a s = false →
    ∃ t, step s = .next t ∧ t.host.answers = s.host.answers ++ [(a, regRead a s)]) ∧
  (∀ (s : State) (a : RegAddr) (rest : List Turn), s.host.agenda = .read a :: rest → readIsFree a s = true →
    ∃ t, step s = .next t ∧ t.host.answers = s.host.answers ++ [(a, Config.freeRead s.host.draws)] ∧ t.host.draws = s.host.draws + 1)

/-! ### The register read space -/

/-- R53: the register map, row by row. -/
def Obligations.RegisterMapRows : Prop :=
  ∀ s : State,
    regRead 0x000 s = statusReg s ∧ regRead 0x001 s = 0x66667D6D7C75687B ∧ regRead 0x002 s = s.total ∧
    regRead 0x003 s = s.leaves.setWidth 64 ∧ regRead 0x004 s = s.nodes.setWidth 64 ∧ regRead 0x005 s = s.merges.setWidth 64 ∧
    regRead 0x006 s = s.payloadBits ∧ regRead 0x007 s = s.outBytes ∧
    regRead 0x008 s = s.acc.setWidth 64 ||| s.fill.setWidth 64 <<< 8 ∧
    regRead 0x009 s = s.encCount ∧ regRead 0x00A s = s.errInfo.setWidth 64 ∧
    (∀ b : Byte, regRead (0x100 + b.setWidth 12) s = tableGet s.freq b) ∧
    (∀ b : Byte, regRead (0x200 + b.setWidth 12) s =
      (tableGet s.codeLen b).setWidth 64 ||| if s.codesV = true ∧ tableGet s.freq b ≠ 0 then 0x100 else 0) ∧
    (∀ (b : Byte) (w : BitVec 2), regRead (0x400 + 4 * b.setWidth 12 + w.setWidth 12) s =
      (tableGet s.codeVal b).extractLsb' (64 * w.toNat) 64) ∧
    (∀ i : Nat, i ≤ 510 → regRead (0x800 + BitVec.ofNat 12 i) s =
      match s.tree with
      | some t => if i < s.nodes.toNat then ((t.preorder[i]?).map Tree.record).getD 0 else 0
      | none => 0)

/-- R54: the reserved addresses read 0, always exactly, also while BUSY = 1. -/
def Obligations.ReservedAddressesReadZero : Prop :=
  ∀ (a : RegAddr) (s : State),
    (0x00B ≤ a.toNat ∧ a.toNat ≤ 0x0FF) ∨ (0x300 ≤ a.toNat ∧ a.toNat ≤ 0x3FF) ∨ (0x9FF ≤ a.toNat) →
    regRead a s = 0 ∧ readIsFree a s = false

/-- R39: STATUS stands at address 0x000; its fields by their bits, and the value 0 at reset. -/
def Obligations.StatusFields : Prop :=
  (∀ s : State, regRead 0x000 s = statusReg s ∧
    (statusReg s).extractLsb' 0 3 = s.phase.bits ∧ (statusReg s).getLsbD 3 = s.busy ∧ (statusReg s).extractLsb' 4 4 = s.err.bits ∧
    ((statusReg s).getLsbD 8 = true ↔ ∃ b f, s.tree = some (.leaf b f)) ∧ (statusReg s).getLsbD 9 = s.tree.isSome ∧
    (statusReg s).getLsbD 10 = s.codesV ∧ ((statusReg s).getLsbD 11 = true ↔ s.outq ≠ []) ∧ (statusReg s).extractLsb' 12 52 = 0) ∧
  statusReg State.reset = 0

/-- R37: the pin `err_o` is 1 exactly when PHASE = ERROR, and 0 after reset. -/
def Obligations.ErrPinFollowsPhase : Prop :=
  (∀ s : State, (errO s = true ↔ s.phase = .error) ∧ (errO s = false ↔ s.phase ≠ .error)) ∧ errO State.reset = false

/-- R40: after reset every piece of state has its value of the table; so every register but ID reads 0, and ID reads its constant;
and CLEAR sets the same values. -/
def Obligations.ResetStateIsTheTable : Prop :=
  State.reset.phase = .count ∧ State.reset.err = .none ∧ State.reset.errInfo = 0 ∧ (∀ b, tableGet State.reset.freq b = 0) ∧
  State.reset.total = 0 ∧ State.reset.tree = none ∧ State.reset.leaves = 0 ∧ State.reset.nodes = 0 ∧ State.reset.merges = 0 ∧
  State.reset.age = 0 ∧ State.reset.codesV = false ∧ (∀ b, tableGet State.reset.codeLen b = 0) ∧
  (∀ b, tableGet State.reset.codeVal b = 0) ∧ State.reset.acc = 0 ∧ State.reset.fill = 0 ∧ State.reset.payloadBits = 0 ∧
  State.reset.encCount = 0 ∧ State.reset.outq = [] ∧ State.reset.outBytes = 0 ∧ State.reset.busy = false ∧ State.reset.cur = 0 ∧
  errO State.reset = false ∧ (∀ a : RegAddr, a ≠ 0x001 → regRead a State.reset = 0) ∧ regRead 0x001 State.reset = 0x66667D6D7C75687B ∧
  (∀ s : State, ∃ t, exec .clear s = .next t ∧ HuffReset t)

/-- R55: the four words of CODE_VAL[b] are its bits from word 0 up, and in a state a run reaches bit 255 and every bit at or above the code's
length read 0. -/
def Obligations.CodeWordsMakeUpTheValue : Prop :=
  (∀ (s : State) (b : Byte),
    regRead (0x403 + 4 * b.setWidth 12) s ++ regRead (0x402 + 4 * b.setWidth 12) s ++ regRead (0x401 + 4 * b.setWidth 12) s ++
      regRead (0x400 + 4 * b.setWidth 12) s = tableGet s.codeVal b) ∧
  (∀ (s : State) (b : Byte), RegistersAgree s →
    (tableGet s.codeVal b).getLsbD 255 = false ∧ ∀ i, (tableGet s.codeLen b).toNat ≤ i → (tableGet s.codeVal b).getLsbD i = false)

/-- R148: in a state a run reaches TREE_REC[i] reads the record of the i-th node in pre-order below NODES and 0 from there on. -/
def Obligations.TreeRecordsReadBack : Prop :=
  (∀ (s : State) (t : Tree) (i : Nat), RegistersAgree s → s.tree = some t → i < s.nodes.toNat →
    ∃ n, t.preorder[i]? = some n ∧ regRead (0x800 + BitVec.ofNat 12 i) s = n.record) ∧
  (∀ (s : State) (i : Nat), s.nodes.toNat ≤ i → i ≤ 510 → regRead (0x800 + BitVec.ofNat 12 i) s = 0) ∧
  (∀ (s : State) (i : Nat), s.tree = none → i ≤ 510 → regRead (0x800 + BitVec.ofNat 12 i) s = 0)

/-! ### The tree -/

/-- R111: the four-level order of R110 is the order of the 73-bit rank key. -/
def Obligations.RankOrderIsKeyOrder : Prop :=
  ∀ x y : Tree, ranksLower x y = true ↔ (rankKey x).toNat < (rankKey y).toNat

/-- R112: at any moment of a build no two candidates have the same key, and the candidate removed ranks strictly below all the others. -/
def Obligations.CandidatesNeverTie : Prop :=
  (∀ (lf : Bool) (freq : ByteTable Word64) (k : Nat), ((mergeLoop lf k 0 (candidates freq)).1.map rankKey).Nodup) ∧
  (∀ (c rest : List Tree) (m : Tree), (c.map rankKey).Nodup → takeLeast c = some (m, rest) →
    c.Perm (m :: rest) ∧ ∀ x ∈ rest, ranksLower m x = true ∧ ranksLower x m = false)

/-- R114: `merge` sums the frequencies and puts the first-removed node on the side LEFT_FIRST says; the machine's default is true (R9). -/
def Obligations.MergePutsFirstRemovedLeft : Prop :=
  (∀ (n1 n2 : Tree) (a : BitVec 8), merge true n1 n2 a = .internal (n1.freq + n2.freq) a n1 n2 ∧
    merge false n1 n2 a = .internal (n1.freq + n2.freq) a n2 n1) ∧
  State.reset.cfg.leftFirst = true

/-- R118: a build over a table that is not all 0 and whose sum is below 2^64 gives one tree, with MERGES = L - 1, NODES = 2L - 1, depth at most
L - 1, exact sums, exactly the occurring bytes as leaves, TOTAL at the root and the ages 0 to L - 2 once each. -/
def Obligations.BuiltTreeMeetsItsInvariants : Prop :=
  ∀ (lf : Bool) (freq : ByteTable Word64), 0 < freqSum freq → freqSum freq < 2 ^ 64 →
    ∃ t, buildTree lf freq = (some t, BitVec.ofNat 8 (leafCount freq - 1)) ∧ TreeFor freq t ∧ 1 ≤ leafCount freq ∧ leafCount freq ≤ 256

/-- R29: whenever TREE_V = 1 in a state a run reaches, TREE meets the source's invariants for the table as it stands. -/
def Obligations.StoredTreeMeetsItsInvariants : Prop :=
  ∀ (s : State) (t : Tree), RegistersAgree s → s.tree = some t →
    t.SumsExact ∧ t.leafPairs.Perm (occurring s.freq) ∧ t.freq = s.total ∧
    t.ages.Perm ((List.range s.merges.toNat).map (BitVec.ofNat 8))

/-- R117: with exactly one occurring byte b the tree is its leaf, LEAVES = NODES = 1, MERGES = 0 and DEGEN = 1. -/
def Obligations.SingleByteBuildIsDegenerate : Prop :=
  ∀ (s : State) (b : Byte), s.phase = .count → s.total ≠ 0 → tableGet s.freq b ≠ 0 → (∀ c, c ≠ b → tableGet s.freq c = 0) →
    ∃ t, exec .build s = .next t ∧ t.tree = some (.leaf b (tableGet s.freq b)) ∧ t.leaves = 1 ∧ t.nodes = 1 ∧ t.merges = 0 ∧
      (statusReg t).getLsbD 8 = true

/-- R120: the tree BUILD makes costs no more bits than any other tree over the same leaves. -/
def Obligations.BuiltTreeIsOptimal : Prop :=
  ∀ (lf : Bool) (freq : ByteTable Word64) (t t' : Tree), freqSum freq < 2 ^ 64 → (buildTree lf freq).1 = some t →
    t'.leafPairs.Perm t.leafPairs → t.costFrom 0 ≤ t'.costFrom 0

/-! ### The codes -/

/-- R131, R133: over any tree with distinct leaf bytes and depth at most 255, a leaf's code has the leaf's depth as its length and spells the
path, the root's decision in bit 0; a byte without a leaf reads length 0 and value 0. -/
def Obligations.CodesSpellTheirPaths : Prop :=
  ∀ t : Tree, (t.paths.map (·.1)).Nodup → (∀ p ∈ t.paths, p.2.length ≤ 255) →
    (∀ p ∈ t.paths, (tableGet (codesOf (some t)).len p.1).toNat = p.2.length ∧
      (tableGet (codesOf (some t)).val p.1).toNat = pathValue p.2) ∧
    (∀ b : Byte, b ∉ t.paths.map (·.1) → tableGet (codesOf (some t)).len b = 0 ∧ tableGet (codesOf (some t)).val b = 0)

/-- R132: a single leaf gets length 0 and value 0, and in a state a run reaches a present byte has length 0 only then. -/
def Obligations.ZeroLengthCodeOnlyWhenDegenerate : Prop :=
  (∀ (s : State) (b : Byte) (f : Word64), s.phase = .built → s.tree = some (.leaf b f) →
    ∃ t, exec .assign s = .next t ∧ tableGet t.codeLen b = 0 ∧ tableGet t.codeVal b = 0) ∧
  (∀ (s : State) (b : Byte), RegistersAgree s → present b s = true → tableGet s.codeLen b = 0 → degen s = true)

/-- R133, R31: in a state a run reaches a byte value that does not occur is not present and reads length 0 and value 0, encoding it raises
SYMBOL_ABSENT, and every byte that is not present reads length 0 and value 0. -/
def Obligations.AbsentBytesHaveNoCode : Prop :=
  ∀ (s : State) (b : Byte), RegistersAgree s →
    (tableGet s.freq b = 0 → present b s = false ∧ tableGet s.codeLen b = 0 ∧ tableGet s.codeVal b = 0 ∧
      (s.phase = .payload → exec (.encode b) s =
        .next { s with errInfo := s.phase.bits ++ s.cur, err := .symbolAbsent, phase := .error, busy := false })) ∧
    (present b s = false → tableGet s.codeLen b = 0 ∧ tableGet s.codeVal b = 0)

/-- R134: in a state a run reaches no present byte's code is a prefix of another's. -/
def Obligations.CodesArePrefixFree : Prop :=
  ∀ (s : State) (b c : Byte), RegistersAgree s → present b s = true → present c s = true → b ≠ c →
    ¬ codeBits (tableGet s.codeVal b) (tableGet s.codeLen b).toNat <+: codeBits (tableGet s.codeVal c) (tableGet s.codeLen c).toNat

/-! ### Records and payload -/

/-- R140, R141: the three fields of a record, with the frequency's low 55 bits only. -/
def Obligations.RecordFields : Prop :=
  (∀ (b : Byte) (f : Word64), (Tree.leaf b f).record = 1 ||| (f.setWidth 55).setWidth 64 <<< 1 ||| b.setWidth 64 <<< 56) ∧
  (∀ (f : Word64) (a : BitVec 8) (l r : Tree), (Tree.internal f a l r).record = (f.setWidth 55).setWidth 64 <<< 1)

/-- R149: the tree block parses back to the tree's shape, leaf bytes and frequencies modulo 2^55, and the parse stops right after it. -/
def Obligations.TreeBlockParsesBack : Prop :=
  ∀ (t : Tree) (rest : List Byte), parseTree (treeBlock (some t) ++ rest) = some (t.forget, rest)

/-- R160: from an empty packer, ENCODE of a list of present bytes emits the full bytes of their stream, and FLUSH completes exactly its
payload. -/
def Obligations.EncodeSequenceObeysPackingLaw : Prop :=
  ∀ (s : State) (bs : List Byte), s.phase = .payload → s.acc = 0 → s.fill = 0 → (∀ b ∈ bs, tableGet s.freq b ≠ 0) →
    ∃ t u, runInstrs (bs.map .encode) s = .next t ∧ t.outq = s.outq ++ fullBytes (streamOf s bs) ∧
      exec .flush t = .next u ∧ u.outq = s.outq ++ payload (streamOf s bs)

/-- R164: when the second pass has each byte as often as the table counts it, the stream has Σ CODE_LEN[b]·FREQ[b] bits, which is the tree's
cost, and the payload is that many bits in bytes, rounded up. -/
def Obligations.SamePassesFixPayloadSize : Prop :=
  ∀ (s : State) (bs : List Byte) (t : Tree), RegistersAgree s → s.codesV = true → s.tree = some t →
    (∀ b, bs.count b = (tableGet s.freq b).toNat) →
    (streamOf s bs).length = (allBytes.map fun b => (tableGet s.codeLen b).toNat * (tableGet s.freq b).toNat).sum ∧
    (streamOf s bs).length = t.costFrom 0 ∧
    (payload (streamOf s bs)).length = ((streamOf s bs).length + 7) / 8

/-! ### Invariants of the machine -/

/-- R24 to R33, R147: both invariants hold at reset. -/
def Obligations.InvariantsHoldAtReset : Prop := RegistersAgree State.reset ∧ OutputIsContainerPrefix State.reset

/-- R24 to R33: every step, of the engine or the host, keeps the registers in agreement. -/
def Obligations.EveryStepKeepsRegistersAgreeing : Prop :=
  ∀ s t : State, RegistersAgree s → step s = .next t → RegistersAgree t

/-- R147, R160, R164, R221: every step keeps the output a prefix of one container: in each phase exactly the parts emitted so far, and in DONE the
whole container. -/
def Obligations.EveryStepKeepsOutputAContainerPrefix : Prop :=
  ∀ s t : State, OutputIsContainerPrefix s → step s = .next t → OutputIsContainerPrefix t

/-- R235, R221: a run that has ended gave either one complete container, over the tree and some list of counted bytes, or an error. -/
def Obligations.EndedRunsGiveContainerOrError : Prop :=
  ∀ s : State, RegistersAgree s → OutputIsContainerPrefix s → runEnded s = true →
    (s.phase = .done ∧ ∃ bs : List Byte, (∀ b ∈ bs, tableGet s.freq b ≠ 0) ∧
      runResult s = some (.container (container s.tree (streamOf s bs)))) ∨
    (s.phase = .error ∧ s.err ≠ .none ∧ runResult s = some (.failed s.err s.errInfo))

/-! ### The assembler notation -/

/-- R87: a COUNT or ENCODE line assembles exactly when its operand is 0 to 255, every other mnemonic of R84 only without an
operand; and which command each of them gives (R84). -/
def Obligations.AssemblerChecksOperands : Prop :=
  (∀ n : Nat, n ≤ 255 → assembleLine { mnemonic := "COUNT", operand := some n } = some (.count (BitVec.ofNat 8 n)) ∧
    assembleLine { mnemonic := "ENCODE", operand := some n } = some (.encode (BitVec.ofNat 8 n))) ∧
  (∀ (m : String) (n : Nat), 255 < n → assembleLine { mnemonic := m, operand := some n } = none) ∧
  (∀ (m : String) (n : Nat), m ∈ plainMnemonics → assembleLine { mnemonic := m, operand := some n } = none) ∧
  (∀ m : String, m ∈ byteMnemonics → assembleLine { mnemonic := m, operand := none } = none) ∧
  (∀ m : String, m ∉ plainMnemonics → assembleLine { mnemonic := m, operand := none } = none) ∧
  assembleLine { mnemonic := "NOP", operand := none } = some .nop ∧
  assembleLine { mnemonic := "CLEAR", operand := none } = some .clear ∧
  assembleLine { mnemonic := "BUILD", operand := none } = some .build ∧
  assembleLine { mnemonic := "ASSIGN", operand := none } = some .assign ∧
  assembleLine { mnemonic := "EMIT_HDR", operand := none } = some .emitHdr ∧
  assembleLine { mnemonic := "EMIT_TREE", operand := none } = some .emitTree ∧
  assembleLine { mnemonic := "EMIT_SEP", operand := none } = some .emitSep ∧
  assembleLine { mnemonic := "FLUSH", operand := none } = some .flush ∧
  assembleLine { mnemonic := "ABORT", operand := none } = some .abort

/-- R88: the expansions of the four pseudo-instructions. -/
def Obligations.MacrosExpand : Prop :=
  (∀ s : List Byte, expand (.counts s) = s.map .count ∧ expand (.encodes s) = s.map .encode) ∧
  expand .pfx = [.emitHdr, .emitTree, .emitSep] ∧
  (∀ s : List Byte, expand (.compress s) =
    expand (.counts s) ++ [.build] ++ [.assign] ++ expand .pfx ++ expand (.encodes s) ++ [.flush])
end

