-- ==== Sys2Proof/Laws/State.lean ====
section
/-! SUPPORT. One lemma per field for each operation that updates State: what the field is afterwards. All true by unfolding the one update. -/

namespace Sys2Proof.Machine

/-! ### finish -/

@[simp] theorem finish_cfg (s : State) : (finish s).cfg = s.cfg := rfl
@[simp] theorem finish_phase (s : State) : (finish s).phase = s.phase := rfl
@[simp] theorem finish_err (s : State) : (finish s).err = s.err := rfl
@[simp] theorem finish_errInfo (s : State) : (finish s).errInfo = s.errInfo := rfl
@[simp] theorem finish_freq (s : State) : (finish s).freq = s.freq := rfl
@[simp] theorem finish_total (s : State) : (finish s).total = s.total := rfl
@[simp] theorem finish_tree (s : State) : (finish s).tree = s.tree := rfl
@[simp] theorem finish_leaves (s : State) : (finish s).leaves = s.leaves := rfl
@[simp] theorem finish_nodes (s : State) : (finish s).nodes = s.nodes := rfl
@[simp] theorem finish_merges (s : State) : (finish s).merges = s.merges := rfl
@[simp] theorem finish_age (s : State) : (finish s).age = s.age := rfl
@[simp] theorem finish_codesV (s : State) : (finish s).codesV = s.codesV := rfl
@[simp] theorem finish_codeLen (s : State) : (finish s).codeLen = s.codeLen := rfl
@[simp] theorem finish_codeVal (s : State) : (finish s).codeVal = s.codeVal := rfl
@[simp] theorem finish_acc (s : State) : (finish s).acc = s.acc := rfl
@[simp] theorem finish_fill (s : State) : (finish s).fill = s.fill := rfl
@[simp] theorem finish_payloadBits (s : State) : (finish s).payloadBits = s.payloadBits := rfl
@[simp] theorem finish_encCount (s : State) : (finish s).encCount = s.encCount := rfl
@[simp] theorem finish_outq (s : State) : (finish s).outq = s.outq := rfl
@[simp] theorem finish_outBytes (s : State) : (finish s).outBytes = s.outBytes := rfl
@[simp] theorem finish_busy (s : State) : (finish s).busy = false := rfl
@[simp] theorem finish_cur (s : State) : (finish s).cur = s.cur := rfl
@[simp] theorem finish_host (s : State) : (finish s).host = s.host := rfl

/-! ### emit -/

@[simp] theorem emit_cfg (x : Byte) (s : State) : (emit x s).cfg = s.cfg := rfl
@[simp] theorem emit_phase (x : Byte) (s : State) : (emit x s).phase = s.phase := rfl
@[simp] theorem emit_err (x : Byte) (s : State) : (emit x s).err = s.err := rfl
@[simp] theorem emit_errInfo (x : Byte) (s : State) : (emit x s).errInfo = s.errInfo := rfl
@[simp] theorem emit_freq (x : Byte) (s : State) : (emit x s).freq = s.freq := rfl
@[simp] theorem emit_total (x : Byte) (s : State) : (emit x s).total = s.total := rfl
@[simp] theorem emit_tree (x : Byte) (s : State) : (emit x s).tree = s.tree := rfl
@[simp] theorem emit_leaves (x : Byte) (s : State) : (emit x s).leaves = s.leaves := rfl
@[simp] theorem emit_nodes (x : Byte) (s : State) : (emit x s).nodes = s.nodes := rfl
@[simp] theorem emit_merges (x : Byte) (s : State) : (emit x s).merges = s.merges := rfl
@[simp] theorem emit_age (x : Byte) (s : State) : (emit x s).age = s.age := rfl
@[simp] theorem emit_codesV (x : Byte) (s : State) : (emit x s).codesV = s.codesV := rfl
@[simp] theorem emit_codeLen (x : Byte) (s : State) : (emit x s).codeLen = s.codeLen := rfl
@[simp] theorem emit_codeVal (x : Byte) (s : State) : (emit x s).codeVal = s.codeVal := rfl
@[simp] theorem emit_acc (x : Byte) (s : State) : (emit x s).acc = s.acc := rfl
@[simp] theorem emit_fill (x : Byte) (s : State) : (emit x s).fill = s.fill := rfl
@[simp] theorem emit_payloadBits (x : Byte) (s : State) : (emit x s).payloadBits = s.payloadBits := rfl
@[simp] theorem emit_encCount (x : Byte) (s : State) : (emit x s).encCount = s.encCount := rfl
@[simp] theorem emit_outq (x : Byte) (s : State) : (emit x s).outq = s.outq ++ [x] := rfl
@[simp] theorem emit_outBytes (x : Byte) (s : State) : (emit x s).outBytes = s.outBytes + 1 := rfl
@[simp] theorem emit_busy (x : Byte) (s : State) : (emit x s).busy = s.busy := rfl
@[simp] theorem emit_cur (x : Byte) (s : State) : (emit x s).cur = s.cur := rfl
@[simp] theorem emit_host (x : Byte) (s : State) : (emit x s).host = s.host := rfl

/-! ### raise -/

@[simp] theorem raise_cfg (e : ErrCode) (s : State) : (raise e s).cfg = s.cfg := rfl
@[simp] theorem raise_phase (e : ErrCode) (s : State) : (raise e s).phase = .error := rfl
@[simp] theorem raise_err (e : ErrCode) (s : State) : (raise e s).err = e := rfl
@[simp] theorem raise_errInfo (e : ErrCode) (s : State) : (raise e s).errInfo = s.phase.bits ++ s.cur := rfl
@[simp] theorem raise_freq (e : ErrCode) (s : State) : (raise e s).freq = s.freq := rfl
@[simp] theorem raise_total (e : ErrCode) (s : State) : (raise e s).total = s.total := rfl
@[simp] theorem raise_tree (e : ErrCode) (s : State) : (raise e s).tree = s.tree := rfl
@[simp] theorem raise_leaves (e : ErrCode) (s : State) : (raise e s).leaves = s.leaves := rfl
@[simp] theorem raise_nodes (e : ErrCode) (s : State) : (raise e s).nodes = s.nodes := rfl
@[simp] theorem raise_merges (e : ErrCode) (s : State) : (raise e s).merges = s.merges := rfl
@[simp] theorem raise_age (e : ErrCode) (s : State) : (raise e s).age = s.age := rfl
@[simp] theorem raise_codesV (e : ErrCode) (s : State) : (raise e s).codesV = s.codesV := rfl
@[simp] theorem raise_codeLen (e : ErrCode) (s : State) : (raise e s).codeLen = s.codeLen := rfl
@[simp] theorem raise_codeVal (e : ErrCode) (s : State) : (raise e s).codeVal = s.codeVal := rfl
@[simp] theorem raise_acc (e : ErrCode) (s : State) : (raise e s).acc = s.acc := rfl
@[simp] theorem raise_fill (e : ErrCode) (s : State) : (raise e s).fill = s.fill := rfl
@[simp] theorem raise_payloadBits (e : ErrCode) (s : State) : (raise e s).payloadBits = s.payloadBits := rfl
@[simp] theorem raise_encCount (e : ErrCode) (s : State) : (raise e s).encCount = s.encCount := rfl
@[simp] theorem raise_outq (e : ErrCode) (s : State) : (raise e s).outq = s.outq := rfl
@[simp] theorem raise_outBytes (e : ErrCode) (s : State) : (raise e s).outBytes = s.outBytes := rfl
@[simp] theorem raise_busy (e : ErrCode) (s : State) : (raise e s).busy = false := rfl
@[simp] theorem raise_cur (e : ErrCode) (s : State) : (raise e s).cur = s.cur := rfl
@[simp] theorem raise_host (e : ErrCode) (s : State) : (raise e s).host = s.host := rfl

/-! ### latchWord -/

@[simp] theorem latchWord_cfg (w : CmdWord) (s : State) : (latchWord w s).cfg = s.cfg := rfl
@[simp] theorem latchWord_phase (w : CmdWord) (s : State) : (latchWord w s).phase = s.phase := rfl
@[simp] theorem latchWord_err (w : CmdWord) (s : State) : (latchWord w s).err = s.err := rfl
@[simp] theorem latchWord_errInfo (w : CmdWord) (s : State) : (latchWord w s).errInfo = s.errInfo := rfl
@[simp] theorem latchWord_freq (w : CmdWord) (s : State) : (latchWord w s).freq = s.freq := rfl
@[simp] theorem latchWord_total (w : CmdWord) (s : State) : (latchWord w s).total = s.total := rfl
@[simp] theorem latchWord_tree (w : CmdWord) (s : State) : (latchWord w s).tree = s.tree := rfl
@[simp] theorem latchWord_leaves (w : CmdWord) (s : State) : (latchWord w s).leaves = s.leaves := rfl
@[simp] theorem latchWord_nodes (w : CmdWord) (s : State) : (latchWord w s).nodes = s.nodes := rfl
@[simp] theorem latchWord_merges (w : CmdWord) (s : State) : (latchWord w s).merges = s.merges := rfl
@[simp] theorem latchWord_age (w : CmdWord) (s : State) : (latchWord w s).age = s.age := rfl
@[simp] theorem latchWord_codesV (w : CmdWord) (s : State) : (latchWord w s).codesV = s.codesV := rfl
@[simp] theorem latchWord_codeLen (w : CmdWord) (s : State) : (latchWord w s).codeLen = s.codeLen := rfl
@[simp] theorem latchWord_codeVal (w : CmdWord) (s : State) : (latchWord w s).codeVal = s.codeVal := rfl
@[simp] theorem latchWord_acc (w : CmdWord) (s : State) : (latchWord w s).acc = s.acc := rfl
@[simp] theorem latchWord_fill (w : CmdWord) (s : State) : (latchWord w s).fill = s.fill := rfl
@[simp] theorem latchWord_payloadBits (w : CmdWord) (s : State) : (latchWord w s).payloadBits = s.payloadBits := rfl
@[simp] theorem latchWord_encCount (w : CmdWord) (s : State) : (latchWord w s).encCount = s.encCount := rfl
@[simp] theorem latchWord_outq (w : CmdWord) (s : State) : (latchWord w s).outq = s.outq := rfl
@[simp] theorem latchWord_outBytes (w : CmdWord) (s : State) : (latchWord w s).outBytes = s.outBytes := rfl
@[simp] theorem latchWord_busy (w : CmdWord) (s : State) : (latchWord w s).busy = true := rfl
@[simp] theorem latchWord_cur (w : CmdWord) (s : State) : (latchWord w s).cur = w := rfl
@[simp] theorem latchWord_host (w : CmdWord) (s : State) : (latchWord w s).host = s.host := rfl

/-! ### withAgenda -/

@[simp] theorem withAgenda_cfg (rest : List Turn) (s : State) : (withAgenda rest s).cfg = s.cfg := rfl
@[simp] theorem withAgenda_phase (rest : List Turn) (s : State) : (withAgenda rest s).phase = s.phase := rfl
@[simp] theorem withAgenda_err (rest : List Turn) (s : State) : (withAgenda rest s).err = s.err := rfl
@[simp] theorem withAgenda_errInfo (rest : List Turn) (s : State) : (withAgenda rest s).errInfo = s.errInfo := rfl
@[simp] theorem withAgenda_freq (rest : List Turn) (s : State) : (withAgenda rest s).freq = s.freq := rfl
@[simp] theorem withAgenda_total (rest : List Turn) (s : State) : (withAgenda rest s).total = s.total := rfl
@[simp] theorem withAgenda_tree (rest : List Turn) (s : State) : (withAgenda rest s).tree = s.tree := rfl
@[simp] theorem withAgenda_leaves (rest : List Turn) (s : State) : (withAgenda rest s).leaves = s.leaves := rfl
@[simp] theorem withAgenda_nodes (rest : List Turn) (s : State) : (withAgenda rest s).nodes = s.nodes := rfl
@[simp] theorem withAgenda_merges (rest : List Turn) (s : State) : (withAgenda rest s).merges = s.merges := rfl
@[simp] theorem withAgenda_age (rest : List Turn) (s : State) : (withAgenda rest s).age = s.age := rfl
@[simp] theorem withAgenda_codesV (rest : List Turn) (s : State) : (withAgenda rest s).codesV = s.codesV := rfl
@[simp] theorem withAgenda_codeLen (rest : List Turn) (s : State) : (withAgenda rest s).codeLen = s.codeLen := rfl
@[simp] theorem withAgenda_codeVal (rest : List Turn) (s : State) : (withAgenda rest s).codeVal = s.codeVal := rfl
@[simp] theorem withAgenda_acc (rest : List Turn) (s : State) : (withAgenda rest s).acc = s.acc := rfl
@[simp] theorem withAgenda_fill (rest : List Turn) (s : State) : (withAgenda rest s).fill = s.fill := rfl
@[simp] theorem withAgenda_payloadBits (rest : List Turn) (s : State) : (withAgenda rest s).payloadBits = s.payloadBits := rfl
@[simp] theorem withAgenda_encCount (rest : List Turn) (s : State) : (withAgenda rest s).encCount = s.encCount := rfl
@[simp] theorem withAgenda_outq (rest : List Turn) (s : State) : (withAgenda rest s).outq = s.outq := rfl
@[simp] theorem withAgenda_outBytes (rest : List Turn) (s : State) : (withAgenda rest s).outBytes = s.outBytes := rfl
@[simp] theorem withAgenda_busy (rest : List Turn) (s : State) : (withAgenda rest s).busy = s.busy := rfl
@[simp] theorem withAgenda_cur (rest : List Turn) (s : State) : (withAgenda rest s).cur = s.cur := rfl
@[simp] theorem withAgenda_host (rest : List Turn) (s : State) : (withAgenda rest s).host = { s.host with agenda := rest } := rfl

/-! ### countByte -/

@[simp] theorem countByte_cfg (b : Byte) (s : State) : (countByte b s).cfg = s.cfg := rfl
@[simp] theorem countByte_phase (b : Byte) (s : State) : (countByte b s).phase = s.phase := rfl
@[simp] theorem countByte_err (b : Byte) (s : State) : (countByte b s).err = s.err := rfl
@[simp] theorem countByte_errInfo (b : Byte) (s : State) : (countByte b s).errInfo = s.errInfo := rfl
@[simp] theorem countByte_freq (b : Byte) (s : State) : (countByte b s).freq = tableSet s.freq b (tableGet s.freq b + 1) := rfl
@[simp] theorem countByte_total (b : Byte) (s : State) : (countByte b s).total = s.total + 1 := rfl
@[simp] theorem countByte_tree (b : Byte) (s : State) : (countByte b s).tree = s.tree := rfl
@[simp] theorem countByte_leaves (b : Byte) (s : State) : (countByte b s).leaves = s.leaves := rfl
@[simp] theorem countByte_nodes (b : Byte) (s : State) : (countByte b s).nodes = s.nodes := rfl
@[simp] theorem countByte_merges (b : Byte) (s : State) : (countByte b s).merges = s.merges := rfl
@[simp] theorem countByte_age (b : Byte) (s : State) : (countByte b s).age = s.age := rfl
@[simp] theorem countByte_codesV (b : Byte) (s : State) : (countByte b s).codesV = s.codesV := rfl
@[simp] theorem countByte_codeLen (b : Byte) (s : State) : (countByte b s).codeLen = s.codeLen := rfl
@[simp] theorem countByte_codeVal (b : Byte) (s : State) : (countByte b s).codeVal = s.codeVal := rfl
@[simp] theorem countByte_acc (b : Byte) (s : State) : (countByte b s).acc = s.acc := rfl
@[simp] theorem countByte_fill (b : Byte) (s : State) : (countByte b s).fill = s.fill := rfl
@[simp] theorem countByte_payloadBits (b : Byte) (s : State) : (countByte b s).payloadBits = s.payloadBits := rfl
@[simp] theorem countByte_encCount (b : Byte) (s : State) : (countByte b s).encCount = s.encCount := rfl
@[simp] theorem countByte_outq (b : Byte) (s : State) : (countByte b s).outq = s.outq := rfl
@[simp] theorem countByte_outBytes (b : Byte) (s : State) : (countByte b s).outBytes = s.outBytes := rfl
@[simp] theorem countByte_busy (b : Byte) (s : State) : (countByte b s).busy = s.busy := rfl
@[simp] theorem countByte_cur (b : Byte) (s : State) : (countByte b s).cur = s.cur := rfl
@[simp] theorem countByte_host (b : Byte) (s : State) : (countByte b s).host = s.host := rfl

/-! ### buildEffect -/

@[simp] theorem buildEffect_cfg (s : State) : (buildEffect s).cfg = s.cfg := rfl
@[simp] theorem buildEffect_phase (s : State) : (buildEffect s).phase = .built := rfl
@[simp] theorem buildEffect_err (s : State) : (buildEffect s).err = s.err := rfl
@[simp] theorem buildEffect_errInfo (s : State) : (buildEffect s).errInfo = s.errInfo := rfl
@[simp] theorem buildEffect_freq (s : State) : (buildEffect s).freq = s.freq := rfl
@[simp] theorem buildEffect_total (s : State) : (buildEffect s).total = s.total := rfl
@[simp] theorem buildEffect_tree (s : State) : (buildEffect s).tree = (buildTree s.cfg.leftFirst s.freq).1 := rfl
@[simp] theorem buildEffect_leaves (s : State) : (buildEffect s).leaves = BitVec.ofNat 9 (leafCount s.freq) := rfl
@[simp] theorem buildEffect_nodes (s : State) : (buildEffect s).nodes = BitVec.ofNat 10 (2 * leafCount s.freq - 1) := rfl
@[simp] theorem buildEffect_merges (s : State) : (buildEffect s).merges = (buildTree s.cfg.leftFirst s.freq).2 := rfl
@[simp] theorem buildEffect_age (s : State) : (buildEffect s).age = (buildTree s.cfg.leftFirst s.freq).2 := rfl
@[simp] theorem buildEffect_codesV (s : State) : (buildEffect s).codesV = s.codesV := rfl
@[simp] theorem buildEffect_codeLen (s : State) : (buildEffect s).codeLen = s.codeLen := rfl
@[simp] theorem buildEffect_codeVal (s : State) : (buildEffect s).codeVal = s.codeVal := rfl
@[simp] theorem buildEffect_acc (s : State) : (buildEffect s).acc = s.acc := rfl
@[simp] theorem buildEffect_fill (s : State) : (buildEffect s).fill = s.fill := rfl
@[simp] theorem buildEffect_payloadBits (s : State) : (buildEffect s).payloadBits = s.payloadBits := rfl
@[simp] theorem buildEffect_encCount (s : State) : (buildEffect s).encCount = s.encCount := rfl
@[simp] theorem buildEffect_outq (s : State) : (buildEffect s).outq = s.outq := rfl
@[simp] theorem buildEffect_outBytes (s : State) : (buildEffect s).outBytes = s.outBytes := rfl
@[simp] theorem buildEffect_busy (s : State) : (buildEffect s).busy = s.busy := rfl
@[simp] theorem buildEffect_cur (s : State) : (buildEffect s).cur = s.cur := rfl
@[simp] theorem buildEffect_host (s : State) : (buildEffect s).host = s.host := rfl

/-! ### assignEffect -/

@[simp] theorem assignEffect_cfg (s : State) : (assignEffect s).cfg = s.cfg := rfl
@[simp] theorem assignEffect_phase (s : State) : (assignEffect s).phase = .coded := rfl
@[simp] theorem assignEffect_err (s : State) : (assignEffect s).err = s.err := rfl
@[simp] theorem assignEffect_errInfo (s : State) : (assignEffect s).errInfo = s.errInfo := rfl
@[simp] theorem assignEffect_freq (s : State) : (assignEffect s).freq = s.freq := rfl
@[simp] theorem assignEffect_total (s : State) : (assignEffect s).total = s.total := rfl
@[simp] theorem assignEffect_tree (s : State) : (assignEffect s).tree = s.tree := rfl
@[simp] theorem assignEffect_leaves (s : State) : (assignEffect s).leaves = s.leaves := rfl
@[simp] theorem assignEffect_nodes (s : State) : (assignEffect s).nodes = s.nodes := rfl
@[simp] theorem assignEffect_merges (s : State) : (assignEffect s).merges = s.merges := rfl
@[simp] theorem assignEffect_age (s : State) : (assignEffect s).age = s.age := rfl
@[simp] theorem assignEffect_codesV (s : State) : (assignEffect s).codesV = true := rfl
@[simp] theorem assignEffect_codeLen (s : State) : (assignEffect s).codeLen = (codesOf s.tree).len := rfl
@[simp] theorem assignEffect_codeVal (s : State) : (assignEffect s).codeVal = (codesOf s.tree).val := rfl
@[simp] theorem assignEffect_acc (s : State) : (assignEffect s).acc = s.acc := rfl
@[simp] theorem assignEffect_fill (s : State) : (assignEffect s).fill = s.fill := rfl
@[simp] theorem assignEffect_payloadBits (s : State) : (assignEffect s).payloadBits = s.payloadBits := rfl
@[simp] theorem assignEffect_encCount (s : State) : (assignEffect s).encCount = s.encCount := rfl
@[simp] theorem assignEffect_outq (s : State) : (assignEffect s).outq = s.outq := rfl
@[simp] theorem assignEffect_outBytes (s : State) : (assignEffect s).outBytes = s.outBytes := rfl
@[simp] theorem assignEffect_busy (s : State) : (assignEffect s).busy = s.busy := rfl
@[simp] theorem assignEffect_cur (s : State) : (assignEffect s).cur = s.cur := rfl
@[simp] theorem assignEffect_host (s : State) : (assignEffect s).host = s.host := rfl

/-! ### resetState -/

@[simp] theorem resetState_cfg (s : State) : (resetState s).cfg = s.cfg := rfl
@[simp] theorem resetState_phase (s : State) : (resetState s).phase = State.reset.phase := rfl
@[simp] theorem resetState_err (s : State) : (resetState s).err = State.reset.err := rfl
@[simp] theorem resetState_errInfo (s : State) : (resetState s).errInfo = State.reset.errInfo := rfl
@[simp] theorem resetState_freq (s : State) : (resetState s).freq = State.reset.freq := rfl
@[simp] theorem resetState_total (s : State) : (resetState s).total = State.reset.total := rfl
@[simp] theorem resetState_tree (s : State) : (resetState s).tree = State.reset.tree := rfl
@[simp] theorem resetState_leaves (s : State) : (resetState s).leaves = State.reset.leaves := rfl
@[simp] theorem resetState_nodes (s : State) : (resetState s).nodes = State.reset.nodes := rfl
@[simp] theorem resetState_merges (s : State) : (resetState s).merges = State.reset.merges := rfl
@[simp] theorem resetState_age (s : State) : (resetState s).age = State.reset.age := rfl
@[simp] theorem resetState_codesV (s : State) : (resetState s).codesV = State.reset.codesV := rfl
@[simp] theorem resetState_codeLen (s : State) : (resetState s).codeLen = State.reset.codeLen := rfl
@[simp] theorem resetState_codeVal (s : State) : (resetState s).codeVal = State.reset.codeVal := rfl
@[simp] theorem resetState_acc (s : State) : (resetState s).acc = State.reset.acc := rfl
@[simp] theorem resetState_fill (s : State) : (resetState s).fill = State.reset.fill := rfl
@[simp] theorem resetState_payloadBits (s : State) : (resetState s).payloadBits = State.reset.payloadBits := rfl
@[simp] theorem resetState_encCount (s : State) : (resetState s).encCount = State.reset.encCount := rfl
@[simp] theorem resetState_outq (s : State) : (resetState s).outq = State.reset.outq := rfl
@[simp] theorem resetState_outBytes (s : State) : (resetState s).outBytes = State.reset.outBytes := rfl
@[simp] theorem resetState_busy (s : State) : (resetState s).busy = State.reset.busy := rfl
@[simp] theorem resetState_cur (s : State) : (resetState s).cur = State.reset.cur := rfl
@[simp] theorem resetState_host (s : State) : (resetState s).host = { s.host with drained := [] } := rfl

end Sys2Proof.Machine
end

