-- ==== Sys2Proof/Laws/Ops.lean ====
section
/-! SUPPORT. What the shared operations can do, said once: the dispatch of a command, and a run of Emit. -/

namespace Sys2Proof.Machine

/-- Everything `runCommand` can do: discard in ERROR, raise an error, or complete. -/
theorem runCommand_cases {i : Instr} {f : State → State} {s t : State} (h : runCommand i f s = .next t) :
    (s.phase = .error ∧ t = finish s) ∨
    (s.phase ≠ .error ∧ ∃ e, commandError i s = some e ∧ t = raise e s) ∨
    (s.phase ≠ .error ∧ commandError i s = none ∧ t = finish (f s)) := by
  unfold runCommand at h
  split at h
  · left; cases h; exact ⟨‹_›, rfl⟩
  · split at h
    · right; left; cases h; exact ⟨‹_›, _, ‹_›, rfl⟩
    · right; right; cases h; exact ⟨‹_›, ‹_›, rfl⟩

theorem runCommand_of_error {i : Instr} {f : State → State} {s : State} (h : s.phase = .error) :
    runCommand i f s = .next (finish s) := by simp [runCommand, h]

theorem runCommand_of_raises {i : Instr} {f : State → State} {s : State} {e : ErrCode} (h : s.phase ≠ .error)
    (he : commandError i s = some e) : runCommand i f s = .next (raise e s) := by simp [runCommand, h, he]

theorem runCommand_of_completes {i : Instr} {f : State → State} {s : State} (h : s.phase ≠ .error)
    (he : commandError i s = none) : runCommand i f s = .next (finish (f s)) := by simp [runCommand, h, he]

/-- `runCommand` always answers a next state with BUSY = 0. -/
theorem runCommand_next (i : Instr) (f : State → State) (s : State) : ∃ t, runCommand i f s = .next t ∧ t.busy = false := by
  unfold runCommand
  split
  · exact ⟨_, rfl, rfl⟩
  · split <;> exact ⟨_, rfl, rfl⟩

/-- The error a command raises is one of the named ones. -/
theorem commandError_ne_none {i : Instr} {s : State} {e : ErrCode} (h : commandError i s = some e) : e ≠ .none := by
  unfold commandError at h
  split at h
  · cases i <;> simp only [ownError] at h <;> (try split at h) <;> cases h <;> decide
  · cases h; decide

/-- A command completes exactly in its legal phases when its own condition is not met. -/
theorem commandError_eq_none {i : Instr} {s : State} :
    commandError i s = none ↔ legalIn i s.phase = true ∧ ownError i s = none := by
  unfold commandError
  split <;> simp_all

/-- A run of Emit appends its bytes and counts them; nothing else changes. -/
theorem emitAll_eq (xs : List Byte) (s : State) :
    emitAll xs s = { s with outq := s.outq ++ xs, outBytes := s.outBytes + BitVec.ofNat 64 xs.length } := by
  induction xs generalizing s with
  | nil => simp [emitAll]
  | cons x xs ih =>
    rw [emitAll, ih]
    simp only [emit, List.append_assoc, List.singleton_append, List.length_cons, State.mk.injEq, and_true, true_and]
    rw [BitVec.add_assoc, Nat.add_comm xs.length 1, BitVec.ofNat_add]
    rfl

theorem bytesLE_length (r : Word64) : (bytesLE r).length = 8 := by simp [bytesLE]

theorem bytesLE_eq (r : Word64) : bytesLE r =
    [r.extractLsb' 0 8, r.extractLsb' 8 8, r.extractLsb' 16 8, r.extractLsb' 24 8, r.extractLsb' 32 8, r.extractLsb' 40 8,
      r.extractLsb' 48 8, r.extractLsb' 56 8] := rfl

end Sys2Proof.Machine
end

