-- ==== Sys2Proof/Laws/BitPacker.lean ====
section
/-! SUPPORT. What one round of the packing loop places, and what the loop leaves alone. -/

namespace Sys2Proof.Machine

/-- The placed byte holds the k low bits of v from bit f up, and zeros elsewhere. -/
theorem placeBits_getLsbD (v : CodeWord) {k f : Nat} (h : f + k ≤ 8) (i : Nat) :
    (placeBits v k f).getLsbD i = (decide (f ≤ i) && decide (i < f + k) && v.getLsbD (i - f)) := by
  have hk : (BitVec.ofNat 256 (2 ^ k - 1)).getLsbD (i - f) = decide (i - f < k) := by
    rw [BitVec.getLsbD_ofNat, Nat.testBit_two_pow_sub_one]
    by_cases hi : i - f < k <;> simp [hi]
    omega
  simp only [placeBits, BitVec.getLsbD_setWidth, BitVec.getLsbD_shiftLeft, BitVec.getLsbD_and, hk]
  by_cases h1 : f ≤ i
  · by_cases h2 : i < f + k
    · have h3 : i < 8 := by omega
      have h4 : i < 256 := by omega
      have h5 : i - f < k := by omega
      have h6 : ¬ i < f := by omega
      simp [h1, h2, h3, h4, h5, h6]
    · have h5 : ¬ i - f < k := by omega
      simp [h2, h5]
  · have h6 : i < f := by omega
    simp [h1, h6]

/-- The packing loop changes ACC, FILL, OUTQ and OUT_BYTES, and nothing else. -/
theorem packLoop_frame (fuel : Nat) (v : CodeWord) (n f : Nat) (s : State) :
    packLoop fuel v n f s = { s with
      acc := (packLoop fuel v n f s).acc
      fill := (packLoop fuel v n f s).fill
      outq := (packLoop fuel v n f s).outq
      outBytes := (packLoop fuel v n f s).outBytes } := by
  induction fuel generalizing v n f s with
  | zero => rfl
  | succ m ih =>
    simp only [packLoop]
    split
    · rfl
    · split
      · exact (ih _ _ _ _).trans (by simp [emit])
      · exact (ih _ _ _ _).trans (by simp)

/-- ENCODE changes the packer, the output and its two counters, and nothing else. -/
theorem encodeByte_frame (b : Byte) (s : State) :
    encodeByte b s = { s with
      payloadBits := s.payloadBits + (tableGet s.codeLen b).setWidth 64
      encCount := s.encCount + 1
      acc := (encodeByte b s).acc
      fill := (encodeByte b s).fill
      outq := (encodeByte b s).outq
      outBytes := (encodeByte b s).outBytes } := by
  unfold encodeByte
  exact (packLoop_frame _ _ _ _ _).trans rfl

/-- FLUSH changes ACC, FILL, OUTQ, OUT_BYTES and PHASE, and nothing else. -/
theorem flushEffect_frame (s : State) :
    flushEffect s = { s with
      acc := (flushEffect s).acc
      fill := (flushEffect s).fill
      outq := (flushEffect s).outq
      outBytes := (flushEffect s).outBytes
      phase := .done } := by
  unfold flushEffect
  split <;> rfl

end Sys2Proof.Machine
end

