-- ==== Sys2Proof/Laws/Operands.lean ====
section
/-! SUPPORT. The laws of the byte-indexed tables and of the list of byte values. -/

namespace Sys2Proof.Machine

@[simp] theorem tableGet_tableSet_self {α : Type} (t : ByteTable α) (b : Byte) (x : α) : tableGet (tableSet t b x) b = x := by
  simp [tableGet, tableSet]

theorem tableGet_tableSet_of_ne {α : Type} (t : ByteTable α) {b c : Byte} (x : α) (h : c ≠ b) :
    tableGet (tableSet t b x) c = tableGet t c := by
  have hne : b.toNat ≠ c.toNat := fun e => h (BitVec.eq_of_toNat_eq e.symm)
  simp [tableGet, tableSet, hne]

theorem tableGet_tableSet {α : Type} (t : ByteTable α) (b c : Byte) (x : α) :
    tableGet (tableSet t b x) c = if c = b then x else tableGet t c := by
  by_cases h : c = b
  · subst h; simp
  · simp [h, tableGet_tableSet_of_ne t x h]

@[simp] theorem tableGet_replicate {α : Type} (x : α) (b : Byte) : tableGet (Vector.replicate 256 x) b = x := by
  simp [tableGet]

/-- Two tables with the same entries are the same table. -/
theorem table_ext {α : Type} {t u : ByteTable α} (h : ∀ b, tableGet t b = tableGet u b) : t = u := by
  apply Vector.ext
  intro i hi
  have := h (BitVec.ofNat 8 i)
  simpa [tableGet, Nat.mod_eq_of_lt hi] using this

@[simp] theorem mem_allBytes (b : Byte) : b ∈ allBytes := by
  simp only [allBytes, List.mem_map, List.mem_range]
  exact ⟨b.toNat, b.isLt, by simp⟩

theorem allBytes_nodup : allBytes.Nodup := by
  refine List.Nodup.map_on ?_ List.nodup_range
  intro i hi j hj h
  simp only [List.mem_range] at hi hj
  simpa [Nat.mod_eq_of_lt hi, Nat.mod_eq_of_lt hj] using congrArg BitVec.toNat h

@[simp] theorem allBytes_length : allBytes.length = 256 := by simp [allBytes]

end Sys2Proof.Machine
end

