-- ==== Sys2Proof/Laws/CodeAssigner.lean ====
section
/-! SUPPORT. What the code walk leaves alone, and the entries of a table with no tree. -/

namespace Sys2Proof.Machine

@[simp] theorem emptyCodes_len (b : Byte) : tableGet emptyCodes.len b = 0 := tableGet_replicate 0 b

@[simp] theorem emptyCodes_val (b : Byte) : tableGet emptyCodes.val b = 0 := tableGet_replicate 0 b

/-- The leaf bytes of the paths are the leaf bytes of the pairs, in the same order. -/
theorem paths_bytes (t : Tree) : t.paths.map (·.1) = t.leafPairs.map (·.1) := by
  induction t with
  | leaf s f => rfl
  | internal f a l r ihl ihr => simp [Tree.paths, Tree.leafPairs, Function.comp_def, ihl, ihr]

/-- The walk writes no entry of a byte that is not a leaf of the tree. -/
theorem walk_absent {t : Tree} {b : Byte} (h : b ∉ t.paths.map (·.1)) (d : Nat) (v : CodeWord) (c : CodeTable) :
    tableGet (walk t d v c).len b = tableGet c.len b ∧ tableGet (walk t d v c).val b = tableGet c.val b := by
  rw [paths_bytes] at h
  induction t generalizing d v c with
  | leaf s f =>
    have hb : b ≠ s := by simpa [Tree.leafPairs] using h
    simp [walk, tableGet_tableSet_of_ne _ _ hb]
  | internal f a l r ihl ihr =>
    simp only [Tree.leafPairs, List.map_append, List.mem_append, not_or] at h
    rw [walk]
    exact ⟨((ihr h.2 _ _ _).1).trans (ihl h.1 _ _ _).1, ((ihr h.2 _ _ _).2).trans (ihl h.1 _ _ _).2⟩

/-- A path value takes its decisions one by one: the root's first, in bit 0. -/
theorem pathValue_cons (x : Bool) (p : List Bool) : pathValue (x :: p) = x.toNat + 2 * pathValue p := by
  simp only [pathValue, List.length_cons, List.range_succ_eq_map, List.map_cons, List.sum_cons, List.map_map, Function.comp_def,
    List.getD_cons_zero, List.getD_cons_succ, pow_succ, ← List.sum_map_mul_left]
  congr 1
  · cases x <;> rfl
  · congr 1
    refine List.map_congr_left fun d _ => ?_
    split <;> omega

end Sys2Proof.Machine
end

