-- ==== Sys2Proof/Laws/PerInstr.lean ====
section
/-! SUPPORT. Statements about every command, one lemma per constructor (LAWS.json). -/

namespace Sys2Proof.Laws.EncodeWellFormed

/-- The word of a command passes the three format checks of spec/30_encoding.md R85. -/
def Statement (i : Instr) : Prop := (fieldsOf (encode i)).wellFormed = true

theorem nop : Statement .nop := rfl
theorem clear : Statement .clear := rfl
theorem count (b : Byte) : Statement (.count b) := by unfold Statement; revert b; decide +kernel
theorem build : Statement .build := rfl
theorem assign : Statement .assign := rfl
theorem emitHdr : Statement .emitHdr := rfl
theorem emitTree : Statement .emitTree := rfl
theorem emitSep : Statement .emitSep := rfl
theorem encode (b : Byte) : Statement (.encode b) := by unfold Statement; revert b; decide +kernel
theorem flush : Statement .flush := rfl
theorem abort : Statement .abort := rfl

end Sys2Proof.Laws.EncodeWellFormed
end

