-- ==== Sys2Proof/Laws/Step.lean ====
section
/-! SUPPORT. What one step can do, said once: the engine's step on a word, and a step of the machine. -/

namespace Sys2Proof.Machine

/-- The effect a command has when it completes (the third case of `runCommand_cases`). -/
def effectOf : Instr → State → State
  | .nop => fun s => s
  | .clear => resetState
  | .count b => countByte b
  | .build => buildEffect
  | .assign => assignEffect
  | .emitHdr => emitHdrEffect
  | .emitTree => emitTreeEffect
  | .emitSep => emitSepEffect
  | .encode b => encodeByte b
  | .flush => flushEffect
  | .abort => fun s => s

/-- Every command but CLEAR is the shared dispatch over its effect. -/
theorem exec_eq_runCommand {i : Instr} (h : i ≠ .clear) (s : State) : exec i s = runCommand i (effectOf i) s := by
  cases i <;> first | rfl | exact absurd rfl h

/-- Everything an `exec` step of the engine can do. -/
theorem engineStep_cases {s t : State} (h : engineStep s = .next t) :
    (decode s.cur = .instr .clear ∧ t = resetState s) ∨
    (decode s.cur ≠ .instr .clear ∧ s.phase = .error ∧ t = finish s) ∨
    (s.phase ≠ .error ∧ (∃ r, decode s.cur = .reject r) ∧ t = raise .illegalCommand s) ∨
    (s.phase ≠ .error ∧ ∃ i e, decode s.cur = .instr i ∧ i ≠ .clear ∧ commandError i s = some e ∧ t = raise e s) ∨
    (s.phase ≠ .error ∧ ∃ i, decode s.cur = .instr i ∧ i ≠ .clear ∧ commandError i s = none ∧ t = finish (effectOf i s)) := by
  unfold engineStep fetchWord at h
  cases hd : decode s.cur with
  | instr i =>
    simp only [hd] at h
    by_cases hc : i = .clear
    · subst hc
      left; simp only [exec, execClear] at h; cases h; exact ⟨rfl, rfl⟩
    · rw [exec_eq_runCommand hc] at h
      rcases runCommand_cases h with ⟨hp, rfl⟩ | ⟨hp, e, he, rfl⟩ | ⟨hp, he, rfl⟩
      · exact .inr (.inl ⟨by simpa using hc, hp, rfl⟩)
      · exact .inr (.inr (.inr (.inl ⟨hp, i, e, rfl, hc, he, rfl⟩)))
      · exact .inr (.inr (.inr (.inr ⟨hp, i, rfl, hc, he, rfl⟩)))
  | reject r =>
    simp only [hd, execIllegal] at h
    split at h <;> cases h
    · exact .inr (.inl ⟨by simp, ‹_›, rfl⟩)
    · exact .inr (.inr (.inl ⟨‹_›, ⟨r, rfl⟩, rfl⟩))

/-- Everything a step of the machine can do: the engine runs with the agenda as it is or its own turn used up, the engine is idle, or an
enabled host step is taken. -/
theorem step_cases {s t : State} (h : step s = .next t) :
    (s.busy = true ∧ engineStep s = .next t) ∨
    (∃ rest, s.host.agenda = .engine :: rest ∧ s.busy = true ∧ engineStep (withAgenda rest s) = .next t) ∨
    (s.busy = false ∧ (t = s ∨ ∃ rest, s.host.agenda = .engine :: rest ∧ t = withAgenda rest s)) ∨
    (∃ turn rest, s.host.agenda = turn :: rest ∧ turn ≠ .engine ∧ turnEnabled turn s = true ∧
      t = hostStep turn (withAgenda rest s)) := by
  unfold step engineOrIdle at h
  split at h
  · split at h
    · exact .inl ⟨‹_›, h⟩
    · cases h; exact .inr (.inr (.inl ⟨Bool.eq_false_iff.mpr ‹_›, .inl rfl⟩))
  · split at h
    · exact .inr (.inl ⟨_, ‹_›, ‹_›, h⟩)
    · cases h; exact .inr (.inr (.inl ⟨Bool.eq_false_iff.mpr ‹_›, .inr ⟨_, ‹_›, rfl⟩⟩))
  · split at h
    · cases h; exact .inr (.inr (.inr ⟨_, _, ‹_›, ‹_›, ‹_›, rfl⟩))
    · split at h
      · exact .inl ⟨‹_›, h⟩
      · cases h; exact .inr (.inr (.inl ⟨Bool.eq_false_iff.mpr ‹_›, .inl rfl⟩))

/-- The host's steps leave every register of the block as it is, but for `issue` (CUR, BUSY), `drain` (OUTQ) and `reset`. -/
theorem hostStep_eq (turn : Turn) (s : State) (h : turn ≠ .reset) :
    hostStep turn s = { s with
      cur := (hostStep turn s).cur
      busy := (hostStep turn s).busy
      outq := (hostStep turn s).outq
      host := (hostStep turn s).host } := by
  cases turn with
  | engine => rfl
  | issue w => rfl
  | read a => simp only [hostStep, readReg]; split <;> rfl
  | drain => simp only [hostStep, drainByte]; split <;> rfl
  | reset => exact absurd rfl h

end Sys2Proof.Machine
end

