-- ==== Sys2Proof/Laws/TreeBuilder.lean ====
section
/-! SUPPORT. What one removal of the least candidate does, and the induction over the merge loop, packaged once. -/

namespace Sys2Proof.Machine

@[simp] theorem takeLeast_nil : takeLeast [] = none := rfl

theorem takeLeast_cons_ne_none (x : Tree) (xs : List Tree) : takeLeast (x :: xs) ≠ none := by
  rw [takeLeast]
  split
  · simp
  · split <;> simp

theorem takeLeast_eq_none {c : List Tree} (h : takeLeast c = none) : c = [] := by
  cases c with
  | nil => rfl
  | cons x xs => exact absurd h (takeLeast_cons_ne_none x xs)

/-- The candidate removed and the others are the candidates there were. -/
theorem takeLeast_perm {c rest : List Tree} {m : Tree} (h : takeLeast c = some (m, rest)) : c.Perm (m :: rest) := by
  induction c generalizing m rest with
  | nil => cases h
  | cons x xs ih =>
    rw [takeLeast] at h
    split at h
    · next hn => cases h; rw [takeLeast_eq_none hn]
    · next m' rest' hs =>
      split at h <;> cases h
      · exact .refl _
      · exact ((ih hs).cons x).trans (.swap _ _ _)

theorem takeLeast_length {c rest : List Tree} {m : Tree} (h : takeLeast c = some (m, rest)) : c.length = rest.length + 1 := by
  simpa using (takeLeast_perm h).length_eq

/-- A merge keeps the frequencies' sum and makes an internal node of the given age. -/
theorem merge_cases (lf : Bool) (n1 n2 : Tree) (age : BitVec 8) :
    merge lf n1 n2 age = .internal (n1.freq + n2.freq) age n1 n2 ∨ merge lf n1 n2 age = .internal (n1.freq + n2.freq) age n2 n1 := by
  cases lf <;> simp [merge]

@[simp] theorem merge_freq (lf : Bool) (n1 n2 : Tree) (age : BitVec 8) : (merge lf n1 n2 age).freq = n1.freq + n2.freq := by
  cases lf <;> rfl

@[simp] theorem merge_isLeaf (lf : Bool) (n1 n2 : Tree) (age : BitVec 8) : (merge lf n1 n2 age).isLeaf = false := by
  cases lf <;> rfl

@[simp] theorem merge_tieByte (lf : Bool) (n1 n2 : Tree) (age : BitVec 8) : (merge lf n1 n2 age).tieByte = age := by
  cases lf <;> rfl

/-- One round of the merge loop: the two least candidates, removed one after the other. -/
theorem takeTwo_perm {c c1 c2 : List Tree} {n1 n2 : Tree} (h1 : takeLeast c = some (n1, c1)) (h2 : takeLeast c1 = some (n2, c2)) :
    c.Perm (n1 :: n2 :: c2) := (takeLeast_perm h1).trans ((takeLeast_perm h2).cons n1)

/-- The induction over the merge loop: what one merge keeps, the loop keeps. -/
theorem mergeLoop_induction {lf : Bool} {P : List Tree → BitVec 8 → Prop}
    (keep : ∀ c age n1 c1 n2 c2, P c age → takeLeast c = some (n1, c1) → takeLeast c1 = some (n2, c2) →
      P (merge lf n1 n2 age :: c2) (age + 1)) :
    ∀ fuel age c, P c age → P (mergeLoop lf fuel age c).1 (mergeLoop lf fuel age c).2 := by
  intro fuel
  induction fuel with
  | zero => intro age c h; exact h
  | succ n ih =>
    intro age c h
    rw [mergeLoop]
    split
    · exact h
    · split
      · exact h
      · exact ih _ _ (keep _ _ _ _ _ _ h ‹_› ‹_›)

/-- A round with one candidate or none stops the loop. -/
theorem mergeLoop_of_length_le_one {lf : Bool} {c : List Tree} (h : c.length ≤ 1) (fuel : Nat) (age : BitVec 8) :
    mergeLoop lf fuel age c = (c, age) := by
  cases fuel with
  | zero => rfl
  | succ n =>
    rw [mergeLoop]
    split
    · rfl
    · next n1 c1 hs =>
      have hl := takeLeast_length hs
      have : c1 = [] := List.eq_nil_of_length_eq_zero (by omega)
      subst this; rfl

/-- A round with two candidates or more merges. -/
theorem mergeLoop_of_two_le {lf : Bool} {c : List Tree} (h : 2 ≤ c.length) (fuel : Nat) (age : BitVec 8) :
    ∃ n1 c1 n2 c2, takeLeast c = some (n1, c1) ∧ takeLeast c1 = some (n2, c2) ∧
      mergeLoop lf (fuel + 1) age c = mergeLoop lf fuel (age + 1) (merge lf n1 n2 age :: c2) := by
  cases h1 : takeLeast c with
  | none => rw [takeLeast_eq_none h1] at h; simp at h
  | some p =>
    obtain ⟨n1, c1⟩ := p
    cases h2 : takeLeast c1 with
    | none => have := takeLeast_length h1; rw [takeLeast_eq_none h2] at this; simp at this; omega
    | some q => exact ⟨n1, c1, q.1, q.2, rfl, h2, by rw [mergeLoop]; simp [h1, h2]⟩

/-- As many rounds as candidates leave one candidate, and the age counts the merges made. -/
theorem mergeLoop_length {lf : Bool} : ∀ (fuel : Nat) (age : BitVec 8) (c : List Tree), 1 ≤ c.length → c.length ≤ fuel + 1 →
    (mergeLoop lf fuel age c).1.length = 1 ∧ (mergeLoop lf fuel age c).2 = age + BitVec.ofNat 8 (c.length - 1) := by
  intro fuel
  induction fuel with
  | zero => intro age c h1 h2; simp only [mergeLoop]; have : c.length = 1 := by omega
            simp [this]
  | succ n ih =>
    intro age c h1 h2
    by_cases hc : c.length ≤ 1
    · rw [mergeLoop_of_length_le_one hc]; have : c.length = 1 := by omega
      simp [this]
    · obtain ⟨n1, c1, n2, c2, e1, e2, e⟩ := mergeLoop_of_two_le (lf := lf) (Nat.lt_of_not_le hc) n age
      have l1 := takeLeast_length e1
      have l2 := takeLeast_length e2
      rw [e]
      obtain ⟨a, b⟩ := ih (age + 1) (merge lf n1 n2 age :: c2) (by simp) (by simp only [List.length_cons]; omega)
      refine ⟨a, b.trans ?_⟩
      have : c.length - 1 = 1 + ((merge lf n1 n2 age :: c2).length - 1) := by simp only [List.length_cons]; omega
      rw [this, BitVec.ofNat_add, ← BitVec.add_assoc]
      rfl

/-- The first candidates are one leaf for each occurring byte, in byte order (R102, R113). -/
theorem candidates_eq (freq : ByteTable Word64) : candidates freq = (occurring freq).map fun p => .leaf p.1 p.2 := by
  unfold candidates occurring
  induction allBytes with
  | nil => rfl
  | cons b bs ih =>
    rw [List.filterMap_cons, List.filter_cons, ih]
    by_cases h : tableGet freq b = 0#64 <;> simp [h]

end Sys2Proof.Machine
end

