-- ==== Sys2Proof/Tests/Slice0.lean ====
section
/-! SUPPORT. Tests: the format checks refuse ill-formed terms, words written out from spec/30_encoding.md decode, one step of each command
against the vectors of spec/95_test_vectors.md, and for every statement with hypotheses a witness that meets them. -/

namespace Sys2Proof.Tests

open Sys2Proof.Machine

-- One test after the other: side by side they ask for more memory than the check gives.
set_option Elab.async false

/-! ### WellFormed: a term that each check refuses -/

theorem test_wf_accepts_count_255 : ({ opc := 0x2, rsv := 0, arg := 0xFF } : Fields).wellFormed = true := by decide
theorem test_wf_refuses_reserved_opcode : ({ opc := 0xB, rsv := 0, arg := 0 } : Fields).wellFormed = false := by decide
theorem test_wf_refuses_reserved_field : ({ opc := 0x2, rsv := 1, arg := 0x61 } : Fields).wellFormed = false := by decide
theorem test_wf_refuses_stray_argument : ({ opc := 0x3, rsv := 0, arg := 1 } : Fields).wellFormed = false := by decide
theorem test_wf_refuses_operand_256 : ({ mnemonic := "COUNT", operand := some 256 } : SourceLine).wellFormed = false := by decide +kernel
theorem test_wf_refuses_missing_operand : ({ mnemonic := "ENCODE", operand := none } : SourceLine).wellFormed = false := by decide +kernel
theorem test_wf_refuses_stray_operand : ({ mnemonic := "BUILD", operand := some 0 } : SourceLine).wellFormed = false := by decide +kernel
theorem test_wf_refuses_lower_case : ({ mnemonic := "nop", operand := none } : SourceLine).wellFormed = false := by decide +kernel
theorem test_wf_refuses_depth_0 : ({ outDepth := 0 } : Config).wellFormed = false := by decide

/-! ### Decode: OPC (4 bits), RSV (20 bits), ARG (8 bits), written out from R80 and R84 -/

theorem test_decode_nop : decode (0b0000#4 ++ 0#20 ++ 0b00000000#8) = .instr .nop := by decide
theorem test_decode_clear : decode (0b0001#4 ++ 0#20 ++ 0b00000000#8) = .instr .clear := by decide
theorem test_decode_count : decode (0b0010#4 ++ 0#20 ++ 0b01100001#8) = .instr (.count 0x61) := by decide
theorem test_decode_build : decode (0b0011#4 ++ 0#20 ++ 0b00000000#8) = .instr .build := by decide
theorem test_decode_assign : decode (0b0100#4 ++ 0#20 ++ 0b00000000#8) = .instr .assign := by decide
theorem test_decode_emit_hdr : decode (0b0101#4 ++ 0#20 ++ 0b00000000#8) = .instr .emitHdr := by decide
theorem test_decode_emit_tree : decode (0b0110#4 ++ 0#20 ++ 0b00000000#8) = .instr .emitTree := by decide
theorem test_decode_emit_sep : decode (0b0111#4 ++ 0#20 ++ 0b00000000#8) = .instr .emitSep := by decide
theorem test_decode_encode : decode (0b1000#4 ++ 0#20 ++ 0b11111110#8) = .instr (.encode 0xFE) := by decide
theorem test_decode_flush : decode (0b1001#4 ++ 0#20 ++ 0b00000000#8) = .instr .flush := by decide
theorem test_decode_abort : decode (0b1010#4 ++ 0#20 ++ 0b00000000#8) = .instr .abort := by decide
/-- V-CTL-3, V-CNT-5, V-CTL-4, V-CTL-2: the four malformed words of the vectors, each by its first failing check. -/
theorem test_decode_rejects_by_name :
    decode 0xB0000000 = .reject .reservedOpcode ∧ decode 0x20000161 = .reject .reservedField ∧
      decode 0x30000001 = .reject .strayArgument ∧ decode 0x00000001 = .reject .strayArgument := by decide
theorem test_decode_table_word : decodeTableWord 32 0x800000FF = some (.encode 0xFF) ∧ decodeTableWord 32 0xF0000000 = none := by decide

/-! ### Small states -/

/-- A field of the next state, when there is one. -/
def after {α : Type} (o : Host.Outcome State Fault Refusal) (f : State → α) : Option α :=
  match o with
  | .next s => some (f s)
  | .fault _ => none
  | .refused _ => none

/-- The reset state in another phase. -/
def inPhase (p : Phase) : State := { State.reset with phase := p }

/-- The table of "aaab" (V-A). -/
def aaabTable : ByteTable Word64 := tableSet (tableSet State.reset.freq 0x61 3) 0x62 1

/-- After COUNTS "aaab". -/
def counted : State := { State.reset with freq := aaabTable, total := 4 }

/-- The tree of "aaab" (V-A). -/
def aaabTree : Tree := .internal 4 0 (.leaf 0x62 1) (.leaf 0x61 3)

/-- After BUILD on "aaab" (V-A). -/
def builtState : State := { counted with tree := some aaabTree, leaves := 2, nodes := 3, merges := 1, age := 1, phase := .built }

/-- After ASSIGN on "aaab" (V-A). -/
def codedState : State :=
  { builtState with
    codeLen := (codesOf (some aaabTree)).len
    codeVal := (codesOf (some aaabTree)).val
    codesV := true
    phase := .coded }

/-- The first 40 bytes of the container of V-A. -/
def aaabFront : List Byte :=
  [0x7b, 0x68, 0x75, 0x7c, 0x6d, 0x7d, 0x66, 0x66, 8, 0, 0, 0, 0, 0, 0, 0, 3, 0, 0, 0, 0, 0, 0, 0x62, 7, 0, 0, 0, 0, 0, 0, 0x61,
    0, 0, 0, 0, 0, 0, 0, 0]

/-- In PAYLOAD for "aaab", nothing encoded yet. -/
def payloadState : State := { codedState with phase := .payload, outq := aaabFront, outBytes := 40 }

/-- After ENCODES "aaab" (V-BP-1). -/
def encodedState : State := { payloadState with acc := 0x07, fill := 4, payloadBits := 4, encCount := 4 }

/-- At the end of P1, all drained. -/
def doneState : State :=
  { encodedState with acc := 0, fill := 0, phase := .done, outq := [], outBytes := 41, host.drained := aaabFront ++ [0x07] }

/-- In ERROR after V-C. -/
def emptyInputState : State := { State.reset with phase := .error, err := .emptyInput, errInfo := 0x030000000 }

/-! ### One step of each command -/

/-- R180: in PAYLOAD with FILL = 3, NOP leaves the packer as it is. -/
theorem test_nop : after (exec .nop { inPhase .payload with fill := 3, acc := 5 }) (fun s => (s.phase, s.acc, s.fill)) =
    some (.payload, 5, 3) := by decide
/-- V-CTL-9. -/
theorem test_clear_leaves_error : after (exec .clear emptyInputState) (fun s => (s.phase, s.err, s.errInfo, statusReg s)) =
    some (.count, .none, 0, 0) := by decide +kernel
/-- V-CNT-1, its last COUNT. -/
theorem test_count : after (exec (.count 0x62) { State.reset with freq := tableSet State.reset.freq 0x61 2, total := 2 })
    (fun s => (tableGet s.freq 0x61, tableGet s.freq 0x62, s.total, s.phase)) = some (2, 1, 3, .count) := by decide +kernel
/-- V-CNT-4. -/
theorem test_count_overflow : after (exec (.count 0x61) { State.reset with total := 0xFFFFFFFFFFFFFFFF, cur := 0x20000061 })
    (fun s => (s.err, s.errInfo, s.phase, s.total)) = some (.countOverflow, 0x020000061, .error, 0xFFFFFFFFFFFFFFFF) := by decide +kernel
/-- V-A, V-BLD-8. -/
theorem test_build : after (exec .build counted) (fun s => (s.tree, s.leaves, s.nodes, s.merges, s.phase)) =
    some (some aaabTree, 2, 3, 1, .built) := by decide +kernel
/-- V-BLD-3 "aabbccdd": leaf ties by byte value, internal ties by age. -/
theorem test_build_ties : (buildTree true (tableSet (tableSet (tableSet (tableSet State.reset.freq 0x61 2) 0x62 2) 0x63 2) 0x64 2)).1.map
    (fun t => t.preorder.map Tree.record) = some [0x10, 0x08, 0x6100000000000005, 0x6200000000000005, 0x08, 0x6300000000000005,
      0x6400000000000005] := by decide +kernel
/-- V-A: a has length 1 and value 1, b length 1 and value 0; register 0x261 reads 0x101 and 0x263 reads 0. -/
theorem test_assign : after (exec .assign builtState) (fun s => (tableGet s.codeVal 0x61, tableGet s.codeVal 0x62, regRead 0x261 s,
    regRead 0x262 s, regRead 0x263 s, s.phase)) = some (1, 0, 0x101, 0x101, 0, .coded) := by decide +kernel
/-- V-CTL-5. -/
theorem test_assign_out_of_phase : after (exec .assign { State.reset with cur := 0x40000000 }) (fun s => (s.err, s.errInfo)) =
    some (.sequenceError, 0x040000000) := by decide +kernel
/-- V-SER-7. -/
theorem test_emit_hdr : after (exec .emitHdr codedState) (fun s => (s.outq, s.outBytes, s.phase)) =
    some ([0x7b, 0x68, 0x75, 0x7c, 0x6d, 0x7d, 0x66, 0x66], 8, .hdr) := by decide +kernel
/-- R144's example. -/
theorem test_emit_tree : after (exec .emitTree { builtState with phase := .hdr }) (fun s => (s.outq, s.outBytes, s.phase)) =
    some ([8, 0, 0, 0, 0, 0, 0, 0, 3, 0, 0, 0, 0, 0, 0, 0x62, 7, 0, 0, 0, 0, 0, 0, 0x61], 24, .tree) := by decide +kernel
/-- V-SER-3: the frequency 2^55 + 3 is truncated to 3 in the record. -/
theorem test_record_truncates : (Tree.leaf 0x41 (2 ^ 55 + 3)).record = 0x4100000000000007 := by decide
/-- V-SER-7. -/
theorem test_emit_sep : after (exec .emitSep (inPhase .tree)) (fun s => (s.outq, s.outBytes, s.phase)) =
    some ([0, 0, 0, 0, 0, 0, 0, 0], 8, .payload) := by decide +kernel
/-- V-BP-3, the 'c' of "aaaabcd": a code of length 3 and value 0b110 crosses the byte boundary. -/
theorem test_encode_crosses : after (exec (.encode 0x63) { inPhase .payload with
      freq := tableSet State.reset.freq 0x63 1
      codeLen := tableSet State.reset.codeLen 0x63 3
      codeVal := tableSet State.reset.codeVal 0x63 6
      acc := 0x2F
      fill := 7 }) (fun s => (s.outq, s.acc, s.fill, s.payloadBits, s.encCount, s.outBytes)) =
    some ([0x2F], 0x03, 2, 3, 1, 1) := by decide +kernel
/-- V-BP-9. -/
theorem test_encode_absent : after (exec (.encode 0x63) { payloadState with cur := 0x80000063 }) (fun s => (s.err, s.errInfo, s.outBytes)) =
    some (.symbolAbsent, 0x580000063, 40) := by decide +kernel
/-- V-BP-1, its FLUSH. -/
theorem test_flush : after (exec .flush encodedState) (fun s => (s.outq.getLast?, s.acc, s.fill, s.phase, s.outBytes)) =
    some (some 0x07, 0, 0, .done, 41) := by decide +kernel
/-- V-BP-10. -/
theorem test_second_flush : after (exec .flush { doneState with cur := 0x90000000 }) (fun s => (s.errInfo, statusReg s)) =
    some (0x690000000, 0x647) := by decide +kernel
/-- R182's example. -/
theorem test_abort : after (exec .abort { inPhase .tree with cur := 0xA0000000 }) (fun s => (s.err, s.errInfo, errO s)) =
    some (.ioFailure, 0x4A0000000, true) := by decide +kernel
/-- V-CTL-8: in ERROR a reserved opcode is discarded. -/
theorem test_error_discards : after (step { emptyInputState with busy := true, cur := 0xB0000000 })
    (fun s => (s.err, s.errInfo, s.busy, statusReg s)) = some (.emptyInput, 0x030000000, false, 0x017) := by decide +kernel
/-- The word placed for the engine is the one the next step runs. -/
theorem test_fetch_word : after (step (State.reset.withFetchWord 32 0x20000061)) (fun s => (tableGet s.freq 0x61, s.busy)) =
    some (1, false) := by decide +kernel
/-- V-SER-8 and R38: register reads. -/
theorem test_register_reads : [0x001, 0x800, 0x801, 0x802, 0x803].map (fun a => regRead a builtState) =
    [0x66667D6D7C75687B, 0x08, 0x6200000000000003, 0x6100000000000007, 0] := by decide +kernel
/-- R66: a host program of issue, engine and drain turns; one step of each kind. -/
theorem test_drain : after (step { payloadState with host.agenda := [.drain] }) (fun s => (s.outq.length, s.host.drained)) =
    some (39, [0x7b]) := by decide +kernel
/-- R149 on R144's example. -/
theorem test_parse : parseTree (treeBlock (some aaabTree) ++ [9]) =
    some (.internal 4 (.leaf 0x62 1) (.leaf 0x61 3), [9]) := by decide +kernel
/-- R87: the three spellings and a comment. -/
theorem test_assemble : assemble ["COUNT 97".toList, "COUNT 0x61 ; a".toList, "ENCODE 'a'".toList, "; nothing".toList, "FLUSH".toList] =
    some [.count 0x61, .count 0x61, .encode 0x61, .flush] := by decide +kernel
/-- V-BP-9's program, and a `;` that a string keeps. -/
theorem test_assemble_macros : assemble ["COUNTS \"ab\"".toList, "BUILD".toList, "ASSIGN".toList, "PREFIX ; R88".toList, "ENCODE 'a'".toList] =
      some [.count 0x61, .count 0x62, .build, .assign, .emitHdr, .emitTree, .emitSep, .encode 0x61] ∧
    assemble ["ENCODES \";\" ; \"".toList] = some [.encode 0x3B] ∧ assemble ["COUNTS \"a".toList] = none := by decide +kernel
/-- R235 on P1. -/
theorem test_run_result : runResult doneState = some (.container (aaabFront ++ [0x07])) := by decide +kernel

/-! ### The invariants hold of the small states -/

theorem counted_agrees : RegistersAgree counted where
  total := by decide +kernel
  packer := by decide
  err := by decide
  info := by decide
  counting := by decide
  noTree := by decide +kernel
  built := by decide
  hasTree := fun _ h => absurd h (by simp [counted, State.reset])
  codesV := by decide
  codes := ⟨rfl, rfl⟩
  idlePacker := by decide
  flushed := by decide

/-- The facts of the tree of "aaab", for every state that holds its table and its tree. -/
theorem aaab_hasTree (s : State) (hc : s.cfg.leftFirst = true) (hf : s.freq = aaabTable) (hm : s.merges = 1) (ha : s.age = 1)
    (hl : s.leaves = 2) (hn : s.nodes = 3) (ht : s.tree = some aaabTree) : ∀ t, s.tree = some t →
      buildTree s.cfg.leftFirst s.freq = (some t, s.merges) ∧ s.age = s.merges ∧ s.leaves.toNat = leafCount s.freq ∧
        s.nodes.toNat = 2 * s.leaves.toNat - 1 ∧ s.merges.toNat = s.leaves.toNat - 1 := by
  intro t h
  rw [ht] at h
  cases h
  rw [hc, hf, hm, ha, hl, hn]
  decide +kernel

theorem built_agrees : RegistersAgree builtState where
  total := by decide +kernel
  packer := by decide
  err := by decide
  info := by decide
  counting := by decide
  noTree := by decide
  built := by decide
  hasTree := aaab_hasTree builtState rfl rfl rfl rfl rfl rfl rfl
  codesV := by decide
  codes := ⟨rfl, rfl⟩
  idlePacker := by decide
  flushed := by decide

theorem payload_agrees : RegistersAgree payloadState where
  total := by decide +kernel
  packer := by decide
  err := by decide
  info := by decide
  counting := by decide
  noTree := by decide
  built := by decide
  hasTree := aaab_hasTree payloadState rfl rfl rfl rfl rfl rfl rfl
  codesV := by decide
  codes := ⟨rfl, rfl⟩
  idlePacker := by decide
  flushed := by decide

theorem done_agrees : RegistersAgree doneState where
  total := by decide +kernel
  packer := by decide
  err := by decide
  info := by decide
  counting := by decide
  noTree := by decide
  built := by decide
  hasTree := aaab_hasTree doneState rfl rfl rfl rfl rfl rfl rfl
  codesV := by decide
  codes := ⟨rfl, rfl⟩
  idlePacker := by decide
  flushed := by decide

theorem counted_output : OutputIsContainerPrefix counted where
  before := fun _ => rfl
  hdr := fun h => by cases h
  tree := fun h => by cases h
  payload := fun h => by cases h
  done := fun h => by cases h
  idlePacker := by decide
  outBytes := by decide

theorem done_output : OutputIsContainerPrefix doneState where
  before := fun h => by rcases h with h | h | h <;> cases h
  hdr := fun h => by cases h
  tree := fun h => by cases h
  payload := fun h => by cases h
  done := fun _ => ⟨[0x61, 0x61, 0x61, 0x62], by decide +kernel, by decide +kernel, by decide +kernel, by decide +kernel⟩
  idlePacker := by decide
  outBytes := by decide +kernel

/-! ### Witnesses: states and operands that meet each statement's hypotheses, clause by clause -/

/-- The word a state holds and the phase it is in. -/
def holding (p : Phase) (w : CmdWord) : State := { inPhase p with cur := w, busy := true }

theorem witness_MalformedWordsAreIllegal :
    (holding .coded 0xB0000000).phase ≠ .error ∧ Malformed (holding .coded 0xB0000000).cur ∧
    Malformed (holding .count 0x20000100).cur ∧ Malformed (holding .count 0x30000001).cur ∧
    (holding .done 0x800000FF).phase ≠ .error ∧ ¬ Malformed (holding .done 0x800000FF).cur := by
  unfold Malformed; decide
theorem witness_ReservedOpcodesAndNopWord :
    (0xB ≤ ((holding .count 0xB0000000).cur.extractLsb' 28 4).toNat ∧ (holding .count 0xB0000000).phase ≠ .error) ∧
    (0xB ≤ ((holding .error 0xF0000000).cur.extractLsb' 28 4).toNat ∧ (holding .error 0xF0000000).phase = .error) ∧
    ((holding .count 0x00000001).cur.extractLsb' 28 4 = 0x0 ∧ (holding .count 0x00000001).cur ≠ 0x00000000) ∧
    decode 0x00000000 = .instr .nop := by decide
theorem witness_StepRunsDecodedCommand :
    (holding .count 0x30000000).busy = true ∧ decode (holding .count 0x30000000).cur = .instr .build ∧
    (holding .count 0x30000000).host.agenda = [] ∧
    { holding .count 0x30000000 with host.agenda := [.engine, .drain] }.host.agenda = .engine :: [.drain] ∧
    { holding .count 0x30000000 with host.agenda := [.issue 5] }.host.agenda = .issue 5 :: [] := by decide
theorem witness_PhaseFollowsStageOrder : ∃ t, engineStep (holding .built 0x40000000) = .next t ∧ t.phase = .coded := ⟨_, rfl, rfl⟩
theorem witness_OnlyOwnersWriteState :
    (∃ t, engineStep (holding .count 0x20000061) = .next t ∧ (holding .count 0x20000061).cur ≠ 0x10000000 ∧
      t.total ≠ (holding .count 0x20000061).total) ∧
    (∃ t, engineStep { counted with cur := 0x30000000 } = .next t ∧ t.leaves ≠ counted.leaves) ∧
    (∃ t, engineStep { builtState with cur := 0x40000000 } = .next t ∧ t.codesV ≠ builtState.codesV) ∧
    (∃ t, engineStep { encodedState with cur := 0x90000000 } = .next t ∧ t.fill ≠ encodedState.fill) ∧
    (∃ t, engineStep { payloadState with cur := 0x80000061 } = .next t ∧ t.encCount ≠ payloadState.encCount) ∧
    (∃ t, engineStep { codedState with cur := 0x50000000 } = .next t ∧ t.outBytes ≠ codedState.outBytes ∧ t.phase ≠ codedState.phase) ∧
    (∃ t, engineStep (holding .count 0xA0000000) = .next t ∧ t.err ≠ (holding .count 0xA0000000).err) :=
  ⟨⟨_, rfl, by decide, by decide⟩, ⟨_, rfl, by decide +kernel⟩, ⟨_, rfl, by decide +kernel⟩, ⟨_, rfl, by decide +kernel⟩,
    ⟨_, rfl, by decide +kernel⟩, ⟨_, rfl, by decide +kernel⟩, ⟨_, rfl, by decide +kernel⟩⟩
theorem witness_ErrorEntryIsPrecise :
    ∃ t, engineStep (holding .tree 0xA0000000) = .next t ∧ (holding .tree 0xA0000000).phase ≠ .error ∧ t.phase = .error :=
  ⟨_, rfl, by decide, rfl⟩
theorem witness_WrongPhaseIsSequenceError :
    WrongPhase (.count 0) (inPhase .built).phase ∧ WrongPhase .build (inPhase .done).phase ∧ WrongPhase .assign (inPhase .count).phase ∧
    WrongPhase .emitHdr (inPhase .hdr).phase ∧ WrongPhase .emitTree (inPhase .tree).phase ∧ WrongPhase .emitSep (inPhase .hdr).phase ∧
    WrongPhase (.encode 0) (inPhase .tree).phase ∧ WrongPhase .flush (inPhase .done).phase ∧ (inPhase .done).phase ≠ .error := by
  unfold WrongPhase; decide
theorem witness_ErrorsFollowPriority :
    (∃ t, engineStep (holding .count 0x30000001) = .next t ∧ t.phase = .error) ∧
    (∃ t, engineStep (holding .count 0x40000000) = .next t ∧ t.phase = .error ∧ t.err = .sequenceError) ∧
    (∃ t, engineStep (holding .count 0x30000000) = .next t ∧ t.phase = .error ∧ t.err = .emptyInput) ∧
    (∃ t, engineStep (holding .payload 0x80000061) = .next t ∧ t.phase = .error ∧ t.err = .symbolAbsent) ∧
    (∃ t, engineStep { holding .count 0x20000061 with total := BitVec.allOnes 64 } = .next t ∧ t.phase = .error ∧
      t.err = .countOverflow) ∧
    (∃ t, engineStep (holding .done 0xA0000000) = .next t ∧ t.phase = .error ∧ t.err = .ioFailure) :=
  ⟨⟨_, rfl, rfl⟩, ⟨_, rfl, rfl, rfl⟩, ⟨_, rfl, rfl, rfl⟩, ⟨_, rfl, rfl, rfl⟩, ⟨_, rfl, rfl, rfl⟩, ⟨_, rfl, rfl, rfl⟩⟩
theorem witness_ErrorStateDiscardsWords :
    emptyInputState.phase = .error ∧ { emptyInputState with cur := 0x10000001 }.cur ≠ 0x10000000 := by decide
theorem witness_OnlyClearAndResetLeaveError :
    (∃ t, step { emptyInputState with cur := 0x10000000, busy := true } = .next t ∧ t.phase ≠ .error) ∧
    (∃ t, step { emptyInputState with host.agenda := [.reset] } = .next t ∧ t.phase ≠ .error) ∧
    (∃ t, step { emptyInputState with busy := true } = .next t ∧ t.phase = .error) :=
  ⟨⟨_, rfl, by decide⟩, ⟨_, rfl, by decide⟩, ⟨_, rfl, by decide⟩⟩
theorem witness_reset_agrees : RegistersAgree State.reset where
  total := by decide +kernel
  packer := by decide
  err := by decide
  info := by decide
  counting := by decide
  noTree := by decide
  built := by decide
  hasTree := fun _ h => absurd h (by simp [State.reset])
  codesV := by decide
  codes := ⟨rfl, rfl⟩
  idlePacker := by decide
  flushed := by decide

theorem empty_output : OutputIsContainerPrefix (holding .count 0x30000000) where
  before := fun _ => rfl
  hdr := fun h => by cases h
  tree := fun h => by cases h
  payload := fun h => by cases h
  done := fun h => by cases h
  idlePacker := by decide
  outBytes := by decide

theorem error_output : OutputIsContainerPrefix emptyInputState where
  before := fun h => by rcases h with h | h | h <;> cases h
  hdr := fun h => by cases h
  tree := fun h => by cases h
  payload := fun h => by cases h
  done := fun h => by cases h
  idlePacker := by decide
  outBytes := by decide

theorem error_agrees : RegistersAgree emptyInputState where
  total := by decide +kernel
  packer := by decide
  err := by decide
  info := by decide
  counting := by decide
  noTree := by decide
  built := by decide
  hasTree := fun _ h => absurd h (by simp [emptyInputState, State.reset])
  codesV := by decide
  codes := ⟨rfl, rfl⟩
  idlePacker := by decide
  flushed := by decide

/-- After ASSIGN on "x" (V-B): the degenerate tree. -/
def degenerateState : State :=
  { State.reset with
    freq := tableSet State.reset.freq 0x78 1
    total := 1
    tree := some (.leaf 0x78 1)
    leaves := 1
    nodes := 1
    codeLen := (codesOf (some (.leaf 0x78 1))).len
    codeVal := (codesOf (some (.leaf 0x78 1))).val
    codesV := true
    phase := .coded }

theorem degenerate_agrees : RegistersAgree degenerateState where
  total := by decide +kernel
  packer := by decide
  err := by decide
  info := by decide
  counting := by decide
  noTree := by decide
  built := by decide
  hasTree := by
    intro t h
    have : t = .leaf 0x78 1 := (Option.some.inj h).symm
    subst this
    decide +kernel
  codesV := by decide
  codes := ⟨rfl, rfl⟩
  idlePacker := by decide
  flushed := by decide

theorem witness_BuildOnEmptyInput :
    RegistersAgree State.reset ∧ State.reset.phase = .count ∧ State.reset.total = 0 ∧ RegistersAgree counted ∧ counted.total ≠ 0 :=
  ⟨witness_reset_agrees, rfl, rfl, counted_agrees, by decide⟩
theorem witness_EmptyInputPrecedesOutput : OutputIsContainerPrefix (holding .count 0x30000000) ∧
    ∃ t, engineStep (holding .count 0x30000000) = .next t ∧ t.phase = .error ∧ t.err = .emptyInput :=
  ⟨empty_output, _, rfl, rfl, rfl⟩
/-- For the malformed-word clauses of the commands' statements: one word of each opcode, with its opcode and a wrong field. -/
theorem witness_malformed_words :
    ((0x00000001 : CmdWord).extractLsb' 28 4 = 0x0 ∧ (0x00000001 : CmdWord) ≠ 0x00000000) ∧
    ((0x10000001 : CmdWord).extractLsb' 28 4 = 0x1 ∧ (0x10000001 : CmdWord) ≠ 0x10000000) ∧
    ((0x20000161 : CmdWord).extractLsb' 28 4 = 0x2 ∧ (0x20000161 : CmdWord).extractLsb' 8 20 ≠ 0) ∧
    ((0x30000001 : CmdWord).extractLsb' 28 4 = 0x3 ∧ (0x30000001 : CmdWord) ≠ 0x30000000) ∧
    ((0x40000001 : CmdWord).extractLsb' 28 4 = 0x4 ∧ (0x40000001 : CmdWord) ≠ 0x40000000) ∧
    ((0x50000001 : CmdWord).extractLsb' 28 4 = 0x5 ∧ (0x50000001 : CmdWord) ≠ 0x50000000) ∧
    ((0x60000100 : CmdWord).extractLsb' 28 4 = 0x6 ∧ (0x60000100 : CmdWord) ≠ 0x60000000) ∧
    ((0x70000001 : CmdWord).extractLsb' 28 4 = 0x7 ∧ (0x70000001 : CmdWord) ≠ 0x70000000) ∧
    ((0x88000061 : CmdWord).extractLsb' 28 4 = 0x8 ∧ (0x88000061 : CmdWord).extractLsb' 8 20 ≠ 0) ∧
    ((0x90000001 : CmdWord).extractLsb' 28 4 = 0x9 ∧ (0x90000001 : CmdWord) ≠ 0x90000000) ∧
    ((0xA0000001 : CmdWord).extractLsb' 28 4 = 0xA ∧ (0xA0000001 : CmdWord) ≠ 0xA0000000) := by decide
theorem witness_NopChangesNothing : (holding .done 0x00000001).phase ≠ .error := by decide
theorem witness_ClearRestoresReset :
    (holding .done 0x10000001).phase ≠ .error ∧ { emptyInputState with cur := 0x10000001 }.phase = .error := by decide
theorem witness_CountAddsOneOccurrence :
    (counted.phase = .count ∧ counted.total ≠ BitVec.allOnes 64) ∧
    { counted with total := BitVec.allOnes 64 }.total = BitVec.allOnes 64 ∧
    (builtState.phase ≠ .count ∧ builtState.phase ≠ .error) := by decide
theorem witness_CountOrderIsIrrelevant :
    [0x61#8, 0x62].Perm [0x62, 0x61] ∧ counted.phase = .count ∧ counted.total.toNat + [0x61#8, 0x62].length < 2 ^ 64 := by decide
theorem witness_BuildStoresTheMergedTree :
    (counted.phase = .count ∧ counted.total ≠ 0) ∧ (State.reset.phase = .count ∧ State.reset.total = 0) ∧
    (builtState.phase ≠ .count ∧ builtState.phase ≠ .error) ∧
    (takeLeast [.leaf 0x61 3, .leaf 0x62 1] = some (.leaf 0x62 1, [.leaf 0x61 3]) ∧ takeLeast [.leaf 0x61 3] = some (.leaf 0x61 3, [])) ∧
    [aaabTree].length ≤ 1 := by decide
theorem witness_AssignWritesTheWalk :
    (builtState.phase = .built ∧ builtState.tree = some aaabTree) ∧ ((inPhase .built).phase = .built ∧ (inPhase .built).tree = none) ∧
    (counted.phase ≠ .built ∧ counted.phase ≠ .error) := by decide
theorem witness_EmitHdrEmitsMagic : codedState.phase = .coded ∧ (inPhase .hdr).phase ≠ .coded ∧ (inPhase .hdr).phase ≠ .error := by decide
theorem witness_EmitTreeEmitsRecords :
    ({ builtState with phase := .hdr }.phase = .hdr ∧ { builtState with phase := .hdr }.tree = some aaabTree) ∧
    (RegistersAgree builtState ∧ builtState.tree = some aaabTree) ∧ ((inPhase .hdr).phase = .hdr ∧ (inPhase .hdr).tree = none) ∧
    ((inPhase .tree).phase ≠ .hdr ∧ (inPhase .tree).phase ≠ .error) :=
  ⟨by decide, ⟨built_agrees, rfl⟩, by decide, by decide⟩
theorem witness_EmitSepEmitsZeros :
    (inPhase .tree).phase = .tree ∧ (inPhase .payload).phase ≠ .tree ∧ (inPhase .payload).phase ≠ .error := by decide
theorem witness_EncodeAppendsTheCode :
    (encodedState.phase = .payload ∧ tableGet encodedState.freq 0x61 ≠ 0 ∧ encodedState.acc >>> encodedState.fill.toNat = 0#8) ∧
    (payloadState.phase = .payload ∧ tableGet payloadState.freq 0x63 = 0) ∧ (doneState.phase ≠ .payload ∧ doneState.phase ≠ .error) := by
  decide +kernel
theorem witness_FlushEmitsThePartialByte :
    (encodedState.phase = .payload ∧ encodedState.fill ≠ 0) ∧ (payloadState.phase = .payload ∧ payloadState.fill = 0) ∧
    RegistersAgree payloadState ∧ (doneState.phase ≠ .payload ∧ doneState.phase ≠ .error) :=
  ⟨by decide, by decide, payload_agrees, by decide⟩
theorem witness_AbortReportsIoFailure :
    ((inPhase .done).phase ≠ .error ∧ ∃ t, exec .abort (inPhase .done) = .next t) ∧ emptyInputState.phase = .error :=
  ⟨⟨by decide, _, rfl⟩, rfl⟩
theorem witness_IssueWaitsForReady :
    { counted with host.agenda := [.issue 0x30000000] }.host.agenda = .issue 0x30000000 :: [] ∧
    { counted with host.agenda := [.issue 0x30000000] }.busy = false ∧
    { counted with host.agenda := [.issue 0x30000000], busy := true }.busy = true ∧
    ∃ t, step { counted with host.agenda := [.issue 0x30000000], busy := true } = .next t := ⟨rfl, rfl, rfl, _, rfl⟩
theorem witness_OutputIsFirstInFirstOut :
    { payloadState with host.agenda := [.drain] }.host.agenda = .drain :: [] ∧
    (∃ x q, { payloadState with host.agenda := [.drain] }.outq = x :: q) ∧
    (∃ t, step { payloadState with host.agenda := [.drain] } = .next t) ∧
    (∃ t, step { payloadState with host.agenda := [.reset] } = .next t ∧ t.outq = []) :=
  ⟨rfl, ⟨_, _, rfl⟩, ⟨_, rfl⟩, ⟨_, rfl, rfl⟩⟩
theorem witness_ResetTakesEffectAtOnce :
    { holding .payload 0x80000061 with host.agenda := [.reset, .engine] }.host.agenda = .reset :: [.engine] := rfl
theorem witness_ReadsAreSilentAndExact :
    { counted with host.agenda := [.read 0x161] }.host.agenda = .read 0x161 :: [] ∧
    { counted with host.agenda := [.read 0x161] }.busy = false := by decide
theorem witness_BusyReadsAreFreeOnlyWhereWritten :
    counted.busy = false ∧
    ((holding .count (encode (.count 0xFF))).busy = true ∧ (holding .count (encode (.count 0xFF))).total ≠ BitVec.allOnes 64 ∧
      readIsFree 0x1FF (holding .count (encode (.count 0xFF))) = true ∧ readIsFree 0x1FE (holding .count (encode (.count 0xFF))) = false) ∧
    ({ counted with busy := true, cur := encode .build }.total ≠ 0 ∧
      readIsFree 0x9FE { counted with busy := true, cur := encode .build } = true ∧
      readIsFree 0x9FF { counted with busy := true, cur := encode .build } = false) ∧
    ((holding .built (encode .assign)).phase = .built ∧ readIsFree 0x2FF (holding .built (encode .assign)) = true) ∧
    (holding .coded (encode .emitHdr)).phase = .coded ∧ (holding .hdr (encode .emitTree)).phase = .hdr ∧
    (holding .tree (encode .emitSep)).phase = .tree ∧ (holding .payload (encode .flush)).phase = .payload ∧
    (tableGet { payloadState with busy := true, cur := encode (.encode 0x61) }.freq 0x61 ≠ 0) ∧
    readIsFree 0x001 (holding .error (encode .clear)) = false ∧ (holding .done (encode .abort)).phase ≠ .error ∧
    readIsFree 0x000 (holding .error (encode .nop)) = true ∧
    readIsFree 0x002 { holding .count (encode .build) with host.agenda := [.read 0x002] } = false ∧
    readIsFree 0x000 { holding .count (encode .build) with host.agenda := [.read 0x000] } = true := by decide +kernel
/-- The reads while a word that will raise an error, or that ERROR discards, waits in CUR. -/
theorem witness_BusyReadsOfErringWords :
    ((holding .count 0x40000000).phase ≠ .error ∧ decode (holding .count 0x40000000).cur = .instr .assign ∧
      WrongPhase .assign (holding .count 0x40000000).phase ∧ readIsFree 0x00A (holding .count 0x40000000) = true) ∧
    ((holding .count (encode .build)).total = 0 ∧ readIsFree 0x003 (holding .count (encode .build)) = false) ∧
    (tableGet (holding .payload (encode (.encode 0xFF))).freq 0xFF = 0 ∧ readIsFree 0x008 (holding .payload (encode (.encode 0xFF))) = false) ∧
    readIsFree 0x002 { holding .count (encode (.count 0xFF)) with total := BitVec.allOnes 64 } = false ∧
    ((holding .error 0x10000001).cur ≠ 0x10000000 ∧ readIsFree 0x00A (holding .error 0x10000001) = false) := by
  unfold WrongPhase; decide +kernel
theorem witness_RegisterMapRows : (510 : Nat) ≤ 510 ∧ regRead (0x800 + BitVec.ofNat 12 2) builtState = 0x6100000000000007 := by decide +kernel
theorem witness_ReservedAddressesReadZero :
    [0x00B, 0x0FF, 0x300, 0x3FF, 0x9FF, 0xFFF].map (fun a : RegAddr => Reg.ofAddr a) = List.replicate 6 .reserved ∧
    [0x00A, 0x100, 0x2FF, 0x400, 0x9FE].all (fun a : RegAddr => Reg.ofAddr a != .reserved) = true := by decide +kernel
theorem witness_CodeWordsMakeUpTheValue :
    RegistersAgree payloadState ∧ (tableGet payloadState.codeLen 0x61).toNat ≤ 1 := ⟨payload_agrees, by decide +kernel⟩
theorem witness_TreeRecordsReadBack :
    (RegistersAgree builtState ∧ builtState.tree = some aaabTree ∧ 2 < builtState.nodes.toNat) ∧
    (builtState.nodes.toNat ≤ 3 ∧ builtState.nodes.toNat ≤ 510) ∧ counted.tree = none :=
  ⟨⟨built_agrees, rfl, by decide⟩, by decide, rfl⟩
theorem witness_CandidatesNeverTie :
    (([.leaf 0x62 1, .leaf 0x61 1] : List Tree).map rankKey).Nodup ∧
    takeLeast [.leaf 0x62 1, .leaf 0x61 1] = some (.leaf 0x61 1, [.leaf 0x62 1]) := by decide
theorem witness_BuiltTreeMeetsItsInvariants : 0 < freqSum aaabTable ∧ freqSum aaabTable < 2 ^ 64 := by decide +kernel
theorem witness_StoredTreeMeetsItsInvariants : RegistersAgree builtState ∧ builtState.tree = some aaabTree := ⟨built_agrees, rfl⟩
theorem witness_SingleByteBuildIsDegenerate :
    { degenerateState with phase := .count }.phase = .count ∧ { degenerateState with phase := .count }.total ≠ 0 ∧
    tableGet { degenerateState with phase := .count }.freq 0x78 ≠ 0 ∧
    ∀ c : Byte, c ≠ 0x78 → tableGet { degenerateState with phase := .count }.freq c = 0 := by decide +kernel
theorem witness_BuiltTreeIsOptimal :
    freqSum aaabTable < 2 ^ 64 ∧ (buildTree true aaabTable).1 = some aaabTree ∧
    (Tree.internal 4 0 (.leaf 0x61 3) (.leaf 0x62 1)).leafPairs.Perm aaabTree.leafPairs := by decide +kernel
theorem witness_CodesSpellTheirPaths :
    (aaabTree.paths.map (·.1)).Nodup ∧ (∀ p ∈ aaabTree.paths, p.2.length ≤ 255) ∧ (0x61#8, [true]) ∈ aaabTree.paths ∧
    0x63#8 ∉ aaabTree.paths.map (·.1) := by decide
theorem witness_ZeroLengthCodeOnlyWhenDegenerate :
    { degenerateState with phase := .built }.phase = .built ∧ { degenerateState with phase := .built }.tree = some (.leaf 0x78 1) ∧
    RegistersAgree degenerateState ∧ present 0x78 degenerateState = true ∧ tableGet degenerateState.codeLen 0x78 = 0 :=
  ⟨rfl, rfl, degenerate_agrees, by decide +kernel, by decide +kernel⟩
theorem witness_AbsentBytesHaveNoCode : RegistersAgree payloadState ∧ tableGet payloadState.freq 0x63 = 0 ∧ payloadState.phase = .payload ∧
    present 0x63 payloadState = false := ⟨payload_agrees, by decide +kernel, rfl, by decide +kernel⟩
theorem witness_CodesArePrefixFree :
    RegistersAgree payloadState ∧ present 0x61 payloadState = true ∧ present 0x62 payloadState = true ∧ 0x61#8 ≠ 0x62 :=
  ⟨payload_agrees, by decide +kernel, by decide +kernel, by decide⟩
theorem witness_EncodeSequenceObeysPackingLaw :
    payloadState.phase = .payload ∧ payloadState.acc = 0 ∧ payloadState.fill = 0 ∧
    ∀ b ∈ [0x61#8, 0x61, 0x61, 0x62], tableGet payloadState.freq b ≠ 0 := by decide +kernel
theorem witness_SamePassesFixPayloadSize :
    RegistersAgree payloadState ∧ payloadState.codesV = true ∧ payloadState.tree = some aaabTree ∧
    ∀ b, [0x61#8, 0x61, 0x61, 0x62].count b = (tableGet payloadState.freq b).toNat :=
  ⟨payload_agrees, rfl, rfl, by decide +kernel⟩
theorem witness_EveryStepKeepsRegistersAgreeing :
    RegistersAgree counted ∧ (∃ t, step counted = .next t) ∧ RegistersAgree payloadState ∧ ∃ t, step payloadState = .next t :=
  ⟨counted_agrees, ⟨_, rfl⟩, payload_agrees, _, rfl⟩
theorem witness_EveryStepKeepsOutputAContainerPrefix :
    OutputIsContainerPrefix doneState ∧ ∃ t, step { doneState with host.agenda := [.reset] } = .next t := ⟨done_output, _, rfl⟩
theorem witness_EndedRunsGiveContainerOrError :
    (RegistersAgree doneState ∧ OutputIsContainerPrefix doneState ∧ runEnded doneState = true) ∧
    (RegistersAgree emptyInputState ∧ OutputIsContainerPrefix emptyInputState ∧ runEnded emptyInputState = true) :=
  ⟨⟨done_agrees, done_output, by decide⟩, error_agrees, error_output, by decide⟩
theorem witness_AssemblerChecksOperands :
    (0 : Nat) ≤ 255 ∧ (255 : Nat) < 256 ∧ "FLUSH" ∈ plainMnemonics ∧ "flush" ∉ plainMnemonics ∧ "COUNT" ∈ byteMnemonics := by decide +kernel

end Sys2Proof.Tests
end

section
/-! PROOFS. The word of a decoded command, the phase a command leads to, and the register reads. -/

namespace Sys2Proof.Machine

/-! ### The word of a decoded command -/

theorem fieldsOf_append (w : CmdWord) : (fieldsOf w).opc ++ ((fieldsOf w).rsv ++ (fieldsOf w).arg) = w := by
  simp only [fieldsOf]
  rw [BitVec.extractLsb'_append_extractLsb'_eq_extractLsb' (by decide), BitVec.extractLsb'_append_extractLsb'_eq_extractLsb' (by decide)]
  exact BitVec.extractLsb'_eq_self

/-- A word that decodes to a command has passed the checks of R85 and is read by the opcode map. -/
theorem decode_eq_instr {w : CmdWord} {i : Instr} (h : decode w = .instr i) :
    (fieldsOf w).rsv = 0#20 ∧ (fieldsOf w).argAllowed = true ∧ commandOf (fieldsOf w).opc.toNat (fieldsOf w).arg = .instr i := by
  simp only [decode] at h
  split at h
  · cases h
  · split at h
    · cases h
    · next hrsv =>
      split at h
      · cases h
      · next harg => exact ⟨by simpa [Fields.reservedZero] using hrsv, by simpa using harg, h⟩

/-- A command without an operand passes the third check of R85 with ARG 0 only. -/
theorem arg_eq_zero {f : Fields} (h : f.argAllowed = true) (ht : f.takesByte = false) : f.arg = 0 := by
  simpa [Fields.argAllowed, ht] using h

theorem encode_count_eq (b : Byte) : encode (.count b) = 0x2#4 ++ (0#20 ++ b) := by revert b; decide +kernel

theorem encode_encode_eq (b : Byte) : encode (.encode b) = 0x8#4 ++ (0#20 ++ b) := by revert b; decide +kernel

/-- The opcode map is inverse to the word patterns of R84. -/
theorem encode_of_commandOf {f : Fields} {i : Instr} (harg : f.argAllowed = true) (h : commandOf f.opc.toNat f.arg = .instr i) :
    encode i = f.opc ++ (0#20 ++ f.arg) := by
  have hopc : f.opc = BitVec.ofNat 4 f.opc.toNat := by simp
  have hplain : f.takesByte = false → f.arg = 0 := arg_eq_zero harg
  simp only [Fields.takesByte] at hplain
  generalize f.opc.toNat = n at h hopc
  rw [hopc] at hplain ⊢
  generalize f.arg = b at *
  unfold commandOf at h
  split at h <;> cases h
  case h_3 => exact encode_count_eq b
  case h_9 => exact encode_encode_eq b
  all_goals rw [hplain rfl]; rfl

/-- A word that decodes to a command is that command's word (R84, R85). -/
theorem eq_encode_of_decode {w : CmdWord} {i : Instr} (h : decode w = .instr i) : w = encode i := by
  obtain ⟨hrsv, harg, hcmd⟩ := decode_eq_instr h
  rw [encode_of_commandOf harg hcmd, ← hrsv, fieldsOf_append]

/-! ### The phase after a command -/

/-- The phase after a command that completes, by command (R84). -/
def phaseAfter : Instr → Phase → Phase
  | .build, _ => .built
  | .assign, _ => .coded
  | .emitHdr, _ => .hdr
  | .emitTree, _ => .tree
  | .emitSep, _ => .payload
  | .flush, _ => .done
  | _, p => p

theorem effectOf_phase {i : Instr} (hc : i ≠ .clear) (s : State) : (effectOf i s).phase = phaseAfter i s.phase := by
  cases i with
  | clear => exact absurd rfl hc
  | encode b => rw [effectOf, encodeByte_frame]; rfl
  | flush => rw [effectOf, flushEffect_frame]; rfl
  | _ => rfl

/-- A command that is legal keeps the phase or takes the next one (R23, R84). -/
theorem phaseAfter_of_legal {i : Instr} {p : Phase} (h : legalIn i p = true) : phaseAfter i p = p ∨ phaseAfter i p = nextPhase p := by
  cases i with
  | build | assign | emitHdr | emitTree | emitSep | flush =>
    rw [legalIn, beq_iff_eq] at h
    subst h
    exact .inr rfl
  | _ => exact .inl rfl

/-! ### The registers -/

/-- STATUS bit by bit (R39). -/
theorem statusReg_getLsbD (s : State) (i : Nat) : (statusReg s).getLsbD i =
    if i < 3 then s.phase.bits.getLsbD i
    else if i = 3 then s.busy
    else if i < 8 then s.err.bits.getLsbD (i - 4)
    else if i = 8 then degen s
    else if i = 9 then treeV s
    else if i = 10 then s.codesV
    else if i = 11 then outqNE s
    else false := by
  show BitVec.getLsbD (w := 52 + 1 + 1 + 1 + 1 + 4 + 1 + 3) _ _ = _
  simp only [statusReg, BitVec.getLsbD_append, BitVec.getLsbD_ofBool, BitVec.getLsbD_zero]
  grind (splits := 20)

theorem degen_iff (s : State) : degen s = true ↔ ∃ b f, s.tree = some (.leaf b f) := by
  unfold degen
  split
  · next t ht => cases t <;> simp [ht, Tree.isLeaf]
  · next hn => simp [hn]

/-- ID stands at one address only (R53). -/
theorem ofAddr_eq_ident {a : RegAddr} (h : Reg.ofAddr a = .ident) : a = 0x001 := by
  have hn : ¬a.toNat = 0 ∧ a.toNat = 1 := by simpa [Reg.ofAddr, ite_eq_iff] using h
  exact BitVec.eq_of_toNat_eq hn.2

/-- After reset every register but ID reads 0 (R40, R53). -/
theorem regValue_reset {r : Reg} (h : r ≠ .ident) : regValue r State.reset = 0 := by
  cases r with
  | ident => exact absurd rfl h
  | freq b => exact tableGet_replicate 0 b
  | codeLen b =>
    have hlen : tableGet State.reset.codeLen b = 0 := tableGet_replicate 0 b
    have hpresent : present b State.reset = false := rfl
    rw [regValue, hlen, hpresent]
    rfl
  | codeVal b w =>
    have hval : tableGet State.reset.codeVal b = 0 := tableGet_replicate 0 b
    simp [regValue, hval]
  | _ => rfl

end Sys2Proof.Machine
end

section
/-! PROOFS. The sum of a table and the end of a build; the packer's clear bits. -/

namespace Sys2Proof.Machine

/-! ### The table and its sum -/

theorem toNat_add_one {x : Word64} (h : x.toNat + 1 < 2 ^ 64) : (x + 1).toNat = x.toNat + 1 :=
  BitVec.toNat_add_of_lt h

theorem freqSum_replicate_zero : freqSum (Vector.replicate 256 0) = 0 := by
  refine List.sum_eq_zero fun x hx => ?_
  obtain ⟨b, -, rfl⟩ := List.mem_map.mp hx
  rw [tableGet_replicate]
  rfl

/-- Replacing one entry moves the sum by that entry. -/
theorem freqSum_tableSet (freq : ByteTable Word64) (b : Byte) (x : Word64) :
    freqSum (tableSet freq b x) + (tableGet freq b).toNat = freqSum freq + x.toNat := by
  have others : (allBytes.erase b).map (fun c => (tableGet (tableSet freq b x) c).toNat) =
      (allBytes.erase b).map fun c => (tableGet freq c).toNat := by
    refine List.map_congr_left fun c hc => ?_
    rw [tableGet_tableSet_of_ne _ _ (allBytes_nodup.mem_erase_iff.mp hc).1]
  have before := List.sum_map_erase (fun c => (tableGet freq c).toNat) (mem_allBytes b)
  have after := List.sum_map_erase (fun c => (tableGet (tableSet freq b x) c).toNat) (mem_allBytes b)
  rw [others, tableGet_tableSet_self] at after
  unfold freqSum
  omega

theorem tableGet_le_freqSum (freq : ByteTable Word64) (b : Byte) : (tableGet freq b).toNat ≤ freqSum freq := by
  have := List.sum_map_erase (fun c => (tableGet freq c).toNat) (mem_allBytes b)
  unfold freqSum
  omega

theorem leafCount_le (freq : ByteTable Word64) : leafCount freq ≤ 256 :=
  (List.length_filter_le _ _).trans allBytes_length.le

theorem length_occurring (freq : ByteTable Word64) : (occurring freq).length = leafCount freq := by
  simp [occurring, leafCount]

theorem length_candidates (freq : ByteTable Word64) : (candidates freq).length = leafCount freq := by
  simp [candidates_eq, length_occurring]

/-- The bytes that occur carry the whole sum (R27, R102). -/
theorem sum_occurring (freq : ByteTable Word64) : ((occurring freq).map fun p => p.2.toNat).sum = freqSum freq := by
  unfold occurring freqSum
  induction allBytes with
  | nil => rfl
  | cons b bs ih =>
    rw [List.filter_cons, List.map_cons, List.sum_cons, ← ih]
    by_cases h : tableGet freq b = 0#64 <;> simp [h]

theorem leafCount_pos {freq : ByteTable Word64} (h : freqSum freq ≠ 0) : 0 < leafCount freq := by
  rw [← length_occurring]
  refine List.length_pos_iff.mpr fun hnil => h ?_
  rw [← sum_occurring, hnil]
  rfl

/-! ### The build -/

/-- A build with a candidate ends with one tree, after one merge less than there were candidates (R113, R118). -/
theorem mergeLoop_candidates (lf : Bool) {freq : ByteTable Word64} (h : 0 < leafCount freq) :
    ∃ t, mergeLoop lf (candidates freq).length 0 (candidates freq) = ([t], BitVec.ofNat 8 (leafCount freq - 1)) := by
  rw [← length_candidates] at h ⊢
  obtain ⟨hlen, hage⟩ := mergeLoop_length (lf := lf) _ 0 _ h (Nat.le_succ _)
  obtain ⟨t, ht⟩ := List.length_eq_one_iff.mp hlen
  exact ⟨t, Prod.ext ht (by simpa using hage)⟩

theorem buildTree_of_pos (lf : Bool) {freq : ByteTable Word64} (h : 0 < leafCount freq) :
    ∃ t, buildTree lf freq = (some t, BitVec.ofNat 8 (leafCount freq - 1)) := by
  obtain ⟨t, ht⟩ := mergeLoop_candidates lf h
  exact ⟨t, by simp only [buildTree, ht, List.head?_cons]⟩

theorem buildTree_of_leafCount_eq_zero (lf : Bool) {freq : ByteTable Word64} (h : leafCount freq = 0) :
    buildTree lf freq = (none, 0) := by
  have : candidates freq = [] := List.eq_nil_of_length_eq_zero ((length_candidates freq).trans h)
  simp [buildTree, this, mergeLoop]

/-! ### The packer -/

/-- ACC is clear from bit `f` up, said bit by bit (R32). -/
theorem ushiftRight_eq_zero_iff (acc : Byte) (f : Nat) : acc >>> f = 0#8 ↔ ∀ i, f ≤ i → acc.getLsbD i = false := by
  constructor
  · intro h i hi
    have := congrArg (·.getLsbD (i - f)) h
    simpa [Nat.add_sub_cancel' hi] using this
  · intro h
    exact BitVec.eq_of_getLsbD_eq fun i _ => by simp [h (f + i) (Nat.le_add_right f i)]

/-- The packing loop leaves ACC clear above FILL (R32, R161). -/
theorem packLoop_clear (fuel : Nat) (v : CodeWord) (n f : Nat) (s : State) (hf : f < 8) (h : s.acc >>> f = 0#8) :
    (packLoop fuel v n f s).acc >>> (packLoop fuel v n f s).fill.toNat = 0#8 := by
  induction fuel generalizing v n f s with
  | zero => simpa [packLoop, Nat.mod_eq_of_lt hf] using h
  | succ m ih =>
    rw [packLoop]
    split
    · simpa [Nat.mod_eq_of_lt hf] using h
    · have hk : min n (8 - f) ≤ 8 - f := Nat.min_le_right _ _
      generalize min n (8 - f) = k at hk
      dsimp only
      split
      · exact ih _ _ _ _ (by decide) rfl
      · refine ih _ _ _ _ (by omega) ((ushiftRight_eq_zero_iff _ _).mpr fun i hi => ?_)
        have hacc := (ushiftRight_eq_zero_iff _ _).mp h i (by omega)
        simp [hacc, placeBits_getLsbD v (show f + k ≤ 8 by omega), Nat.not_lt.mpr hi]

theorem encodeByte_clear (b : Byte) {s : State} (h : s.acc >>> s.fill.toNat = 0#8) :
    (encodeByte b s).acc >>> (encodeByte b s).fill.toNat = 0#8 :=
  packLoop_clear _ _ _ _ _ s.fill.isLt h

end Sys2Proof.Machine
end

section
/-! PROOFS. The build's invariant: what every round of the merge loop keeps (spec/10_state.md R29, spec/41_tree_builder.md R118). -/

namespace Sys2Proof.Machine

/-- What a merge loop owes to the table it started from (R29, R118): the candidates are exact trees over the occurring bytes, their
frequencies sum to the table's sum, and the ages given out are 0, 1, 2 and so on. -/
structure BuildInvariant (freq : ByteTable Word64) (c : List Tree) (age : BitVec 8) : Prop where
  sums : ∀ t ∈ c, t.SumsExact
  leaves : (c.flatMap Tree.leafPairs).Perm (occurring freq)
  total : (c.map fun t => t.freq.toNat).sum = freqSum freq
  ages : ∃ k, k + c.length = leafCount freq ∧ age = BitVec.ofNat 8 k ∧
    (c.flatMap Tree.ages).Perm ((List.range k).map (BitVec.ofNat 8))

theorem BuildInvariant.candidates (freq : ByteTable Word64) : BuildInvariant freq (candidates freq) 0 where
  sums t ht := by
    rw [candidates_eq] at ht
    obtain ⟨p, -, rfl⟩ := List.mem_map.mp ht
    trivial
  leaves := by simp [candidates_eq, List.flatMap_map, Tree.leafPairs]
  total := by rw [candidates_eq, List.map_map]; exact sum_occurring freq
  ages := ⟨0, by simp [length_candidates], rfl, by simp [candidates_eq, List.flatMap_map, Tree.ages]⟩

theorem BuildInvariant.perm {freq : ByteTable Word64} {c c' : List Tree} {age : BitVec 8} (h : BuildInvariant freq c age)
    (hc : c.Perm c') : BuildInvariant freq c' age where
  sums t ht := h.sums t (hc.mem_iff.mpr ht)
  leaves := (hc.flatMap_right _).symm.trans h.leaves
  total := (hc.map _).sum_eq.symm.trans h.total
  ages := by
    obtain ⟨k, hk, hage, hperm⟩ := h.ages
    exact ⟨k, hc.length_eq ▸ hk, hage, (hc.flatMap_right _).symm.trans hperm⟩

theorem leafPairs_merge_perm (lf : Bool) (n1 n2 : Tree) (age : BitVec 8) :
    (merge lf n1 n2 age).leafPairs.Perm (n1.leafPairs ++ n2.leafPairs) := by
  rcases merge_cases lf n1 n2 age with e | e <;> rw [e]
  · exact .refl _
  · exact List.perm_append_comm

theorem ages_merge_perm (lf : Bool) (n1 n2 : Tree) (age : BitVec 8) :
    (merge lf n1 n2 age).ages.Perm (age :: (n1.ages ++ n2.ages)) := by
  rcases merge_cases lf n1 n2 age with e | e <;> rw [e]
  · exact .refl _
  · exact List.perm_append_comm.cons age

theorem sumsExact_merge (lf : Bool) {n1 n2 : Tree} (age : BitVec 8) (h1 : n1.SumsExact) (h2 : n2.SumsExact)
    (hf : n1.freq.toNat + n2.freq.toNat < 2 ^ 64) : (merge lf n1 n2 age).SumsExact := by
  have hsum := BitVec.toNat_add_of_lt hf
  rcases merge_cases lf n1 n2 age with e | e <;> rw [e]
  · exact ⟨hsum, h1, h2⟩
  · exact ⟨hsum.trans (Nat.add_comm _ _), h2, h1⟩

/-- One merge keeps the build's invariant, as long as the table's sum fits a frequency. -/
theorem BuildInvariant.merge {freq : ByteTable Word64} {n1 n2 : Tree} {c : List Tree} {age : BitVec 8} (lf : Bool)
    (hlt : freqSum freq < 2 ^ 64) (h : BuildInvariant freq (n1 :: n2 :: c) age) :
    BuildInvariant freq (merge lf n1 n2 age :: c) (age + 1) := by
  have htotal := h.total
  simp only [List.map_cons, List.sum_cons] at htotal
  have hf : n1.freq.toNat + n2.freq.toNat < 2 ^ 64 := by omega
  exact {
    sums := fun t ht => by
      rcases List.mem_cons.mp ht with rfl | ht
      · exact sumsExact_merge lf age (h.sums n1 (by simp)) (h.sums n2 (by simp)) hf
      · exact h.sums t (by simp [ht])
    leaves := by
      refine .trans ?_ h.leaves
      simpa using (leafPairs_merge_perm lf n1 n2 age).append_right (c.flatMap Tree.leafPairs)
    total := by
      rw [List.map_cons, List.sum_cons, merge_freq, BitVec.toNat_add_of_lt hf]
      omega
    ages := by
      obtain ⟨k, hk, rfl, hperm⟩ := h.ages
      refine ⟨k + 1, by simpa [Nat.add_assoc, Nat.add_comm] using hk, (BitVec.ofNat_add ..).symm, ?_⟩
      rw [List.range_succ, List.map_append]
      refine .trans ?_ ((hperm.cons (BitVec.ofNat 8 k)).trans (List.perm_append_singleton ..).symm)
      simpa using (ages_merge_perm lf n1 n2 (BitVec.ofNat 8 k)).append_right (c.flatMap Tree.ages) }

/-- The tree a build ends with meets the invariant alone. -/
theorem buildTree_invariant {lf : Bool} {freq : ByteTable Word64} {t : Tree} {age : BitVec 8} (hlt : freqSum freq < 2 ^ 64)
    (h : buildTree lf freq = (some t, age)) : BuildInvariant freq [t] age := by
  have hpos : 0 < leafCount freq := by
    refine Nat.pos_of_ne_zero fun h0 => ?_
    rw [buildTree_of_leafCount_eq_zero lf h0] at h
    cases h
  obtain ⟨u, hu⟩ := mergeLoop_candidates lf hpos
  have hloop := mergeLoop_induction (lf := lf) (P := BuildInvariant freq)
    (fun _ _ _ _ _ _ hc h1 h2 => (hc.perm (takeTwo_perm h1 h2)).merge lf hlt) (candidates freq).length 0 _ (.candidates freq)
  rw [hu] at hloop
  simp only [buildTree, hu, List.head?_cons] at h
  cases h
  exact hloop

end Sys2Proof.Machine
end

section
/-! PROOFS. Every operation keeps the registers in agreement (spec/10_state.md R24 to R33). -/

namespace Sys2Proof.Machine

theorem resetState_agrees (s : State) : RegistersAgree (resetState s) where
  total := freqSum_replicate_zero.symm
  packer := rfl
  err := by simp [State.reset]
  info _ := rfl
  counting _ := rfl
  noTree _ := ⟨rfl, rfl, rfl, rfl, rfl⟩
  built h := absurd rfl h
  hasTree _ h := nomatch h
  codesV _ := rfl
  codes := ⟨rfl, rfl⟩
  idlePacker _ _ _ := ⟨rfl, rfl, rfl, rfl⟩
  flushed h := nomatch h

section
variable {s : State} (h : RegistersAgree s)
include h

/-- The agreement says nothing of the command latch, the output queue and the host. -/
theorem RegistersAgree.frame (busy : Bool) (cur : CmdWord) (outq : List Byte) (outBytes : Word64) (host : HostSide) :
    RegistersAgree { s with busy := busy, cur := cur, outq := outq, outBytes := outBytes, host := host } :=
  { h with }

theorem RegistersAgree.finish : RegistersAgree (finish s) := h.frame false _ _ _ _

/-- Entering ERROR keeps the agreement: what it asks outside ERROR is asked no more (R205). -/
theorem RegistersAgree.raise {e : ErrCode} (he : e ≠ .none) : RegistersAgree (raise e s) :=
  { h with
    err := by simpa using he
    info := fun hp => absurd rfl hp
    counting := fun hp => nomatch hp
    built := fun _ hp => absurd rfl hp
    codesV := fun hp => absurd rfl hp
    idlePacker := fun _ _ hp => absurd rfl hp
    flushed := fun hp => nomatch hp }

/-- In PAYLOAD the packer and its counters may hold anything, as long as ACC is clear above FILL (R32, R33). -/
theorem RegistersAgree.repack (hp : s.phase = .payload) {acc : Byte} {fill : BitVec 3} (payloadBits encCount : Word64)
    (hacc : acc >>> fill.toNat = 0#8) :
    RegistersAgree { s with acc := acc, fill := fill, payloadBits := payloadBits, encCount := encCount } :=
  { h with
    packer := hacc
    idlePacker := fun hn => absurd hp hn
    flushed := fun hd => nomatch hp.symm.trans hd }

/-- From ASSIGN on the phase may go forward, as far as the packer meets the new phase's demand (R23). -/
theorem RegistersAgree.advance {q : Phase} (hs : afterAssign s.phase = true) (hq : afterAssign q = true)
    (hidle : q ≠ .payload → q ≠ .done → s.phase ≠ .payload ∧ s.phase ≠ .done)
    (hdone : q = .done → s.acc = 0 ∧ s.fill = 0) : RegistersAgree { s with phase := q } := by
  have hne : ∀ {p : Phase}, afterAssign p = true → p ≠ .count ∧ p ≠ .error := by
    intro p; cases p <;> simp [afterAssign]
  obtain ⟨hsc, hse⟩ := hne hs
  obtain ⟨hqc, hqe⟩ := hne hq
  exact { h with
    err := by simp [h.err, hse, hqe]
    info := fun _ => h.info hse
    counting := fun hc => absurd hc hqc
    built := fun _ _ => h.built hsc hse
    codesV := fun _ => by simp [h.codesV hse, hs, hq]
    idlePacker := fun hp hd _ => h.idlePacker (hidle hp hd).1 (hidle hp hd).2 hse
    flushed := hdone }

theorem countByte_agrees (b : Byte) (hp : s.phase = .count) (hmax : s.total ≠ BitVec.allOnes 64) :
    RegistersAgree (countByte b s) := by
  have hroom : s.total.toNat + 1 < 2 ^ 64 := by
    have : s.total.toNat ≠ 2 ^ 64 - 1 := fun e => hmax (BitVec.eq_of_toNat_eq (by simpa using e))
    omega
  have hle := tableGet_le_freqSum s.freq b
  have hsum := freqSum_tableSet s.freq b (tableGet s.freq b + 1)
  have htotal := h.total
  rw [toNat_add_one (by omega)] at hsum
  exact { h with
    total := by
      rw [countByte_total, countByte_freq, toNat_add_one hroom]
      omega
    hasTree := fun t ht => nomatch (h.counting hp).symm.trans ht }

theorem buildEffect_agrees (hp : s.phase = .count) (hpos : s.total ≠ 0) : RegistersAgree (buildEffect s) := by
  have hsum : freqSum s.freq ≠ 0 := by
    rw [← h.total]
    exact fun e => hpos (BitVec.eq_of_toNat_eq e)
  have hcount := leafCount_pos hsum
  have hle := leafCount_le s.freq
  obtain ⟨t, ht⟩ := buildTree_of_pos s.cfg.leftFirst hcount
  have hcodesV : s.codesV = false := by simpa [hp, afterAssign] using h.codesV
  exact { h with
    err := by simp [h.err, hp]
    info := fun _ => h.info (by simp [hp])
    counting := fun hc => nomatch hc
    noTree := fun hn => by simp [ht] at hn
    built := fun _ _ => by simp [ht]
    hasTree := fun u hu => by
      obtain rfl : t = u := by simpa [ht] using hu
      refine ⟨by simp [ht], rfl, ?_, ?_, ?_⟩ <;> simp [ht] <;> omega
    codesV := fun _ => hcodesV
    codes := by simpa [hcodesV] using h.codes
    idlePacker := fun _ _ _ => h.idlePacker (by simp [hp]) (by simp [hp]) (by simp [hp])
    flushed := fun hd => nomatch hd }

theorem assignEffect_agrees (hp : s.phase = .built) : RegistersAgree (assignEffect s) := by
  have htree := h.built (by simp [hp]) (by simp [hp])
  exact { h with
    err := by simp [h.err, hp]
    info := fun _ => h.info (by simp [hp])
    counting := fun hc => nomatch hc
    noTree := fun hn => by simp [show s.tree = none from hn] at htree
    built := fun _ _ => htree
    codesV := fun _ => rfl
    codes := ⟨rfl, rfl⟩
    idlePacker := fun _ _ _ => h.idlePacker (by simp [hp]) (by simp [hp]) (by simp [hp])
    flushed := fun hd => nomatch hd }

/-- A block of the container before the payload: bytes go out and the next phase begins (R143 to R145). -/
theorem emitAll_agrees (xs : List Byte) {q : Phase} (hs : afterAssign s.phase = true) (hq : afterAssign q = true)
    (hpay : s.phase ≠ .payload) (hdone : s.phase ≠ .done) (hend : q ≠ .done) : RegistersAgree { emitAll xs s with phase := q } := by
  rw [emitAll_eq]
  exact (h.advance hs hq (fun _ _ => ⟨hpay, hdone⟩) (fun e => absurd e hend)).frame _ _ _ _ _

theorem encodeByte_agrees (b : Byte) (hp : s.phase = .payload) : RegistersAgree (encodeByte b s) := by
  rw [encodeByte_frame]
  exact (h.repack hp _ _ (encodeByte_clear b h.packer)).frame _ _ _ _ _

theorem flushEffect_agrees (hp : s.phase = .payload) : RegistersAgree (flushEffect s) := by
  have hempty : (flushEffect s).acc = 0 ∧ (flushEffect s).fill = 0 := by
    unfold flushEffect
    split
    · next hfill => exact ⟨by simpa [hfill] using h.packer, hfill⟩
    · exact ⟨rfl, rfl⟩
  rw [flushEffect_frame, hempty.1, hempty.2]
  have hpacked := h.repack hp s.payloadBits s.encCount (acc := 0) (fill := 0) rfl
  exact (hpacked.advance (by simp [hp, afterAssign]) rfl (fun _ hn => absurd rfl hn) (fun _ => ⟨rfl, rfl⟩)).frame _ _ _ _ _

/-- Every command that completes keeps the agreement. -/
theorem effectOf_agrees {i : Instr} (hc : i ≠ .clear) (he : commandError i s = none) : RegistersAgree (effectOf i s) := by
  obtain ⟨hlegal, hown⟩ := commandError_eq_none.mp he
  cases i with
  | nop => exact h
  | clear => exact absurd rfl hc
  | count b => exact countByte_agrees h b (by simpa [legalIn] using hlegal) (by simpa [ownError] using hown)
  | build => exact buildEffect_agrees h (by simpa [legalIn] using hlegal) (by simpa [ownError] using hown)
  | assign => exact assignEffect_agrees h (by simpa [legalIn] using hlegal)
  | emitHdr | emitTree | emitSep =>
    rw [legalIn, beq_iff_eq] at hlegal
    exact emitAll_agrees h _ (by simp [hlegal, afterAssign]) rfl (by simp [hlegal]) (by simp [hlegal]) (by decide)
  | encode b => exact encodeByte_agrees h b (by simpa [legalIn] using hlegal)
  | flush => exact flushEffect_agrees h (by simpa [legalIn] using hlegal)
  | abort => exact nomatch hown

theorem engineStep_agrees {t : State} (ht : engineStep s = .next t) : RegistersAgree t := by
  rcases engineStep_cases ht with ⟨-, rfl⟩ | ⟨-, -, rfl⟩ | ⟨-, -, rfl⟩ | ⟨-, i, e, -, -, he, rfl⟩ | ⟨-, i, -, hc, he, rfl⟩
  · exact resetState_agrees s
  · exact h.finish
  · exact h.raise (by decide)
  · exact h.raise (commandError_ne_none he)
  · exact (effectOf_agrees h hc he).finish

theorem hostStep_agrees (turn : Turn) : RegistersAgree (hostStep turn s) := by
  by_cases hr : turn = .reset
  · subst hr
    exact resetState_agrees s
  · rw [hostStep_eq turn s hr]
    exact h.frame _ _ _ _ _

theorem withAgenda_agrees (rest : List Turn) : RegistersAgree (withAgenda rest s) := h.frame _ _ _ _ _

end

end Sys2Proof.Machine
end

section
/-! PROOFS. The statements about the state and the step (spec/10_state.md). -/

namespace Sys2Proof.Machine

/-- Settles O56: the engine's step, the host's steps and the agenda each keep the agreement (R24 to R33). -/
theorem everyStepKeepsRegistersAgreeing : Obligations.EveryStepKeepsRegistersAgreeing := by
  intro s t h hstep
  rcases step_cases hstep with ⟨-, ht⟩ | ⟨rest, -, -, ht⟩ | ⟨-, rfl | ⟨rest, -, rfl⟩⟩ | ⟨turn, rest, -, -, -, rfl⟩
  · exact engineStep_agrees h ht
  · exact engineStep_agrees (withAgenda_agrees h rest) ht
  · exact h
  · exact withAgenda_agrees h rest
  · exact hostStep_agrees (withAgenda_agrees h rest) turn

/-- Settles O7: a command that completes is legal, so its phase is the one before its next (R23, R84). -/
theorem phaseFollowsStageOrder : Obligations.PhaseFollowsStageOrder := by
  intro s t ht
  rcases engineStep_cases ht with ⟨hd, rfl⟩ | ⟨-, -, rfl⟩ | ⟨-, -, rfl⟩ | ⟨-, i, e, -, -, -, rfl⟩ | ⟨-, i, -, hc, he, rfl⟩
  · exact .inr (.inr (.inr ⟨rfl, eq_encode_of_decode hd⟩))
  · exact .inl rfl
  · exact .inr (.inr (.inl rfl))
  · exact .inr (.inr (.inl rfl))
  · rw [finish_phase, effectOf_phase hc]
    exact (phaseAfter_of_legal (commandError_eq_none.mp he).1).imp_right .inl

/-- Settles O8, by what the engine's step can do and then by the command that completes. -/
theorem onlyOwnersWriteState : Obligations.OnlyOwnersWriteState := by
  intro s t ht hclear
  rcases engineStep_cases ht with ⟨hd, rfl⟩ | ⟨-, -, rfl⟩ | ⟨hp, -, rfl⟩ | ⟨hp, i, e, -, -, -, rfl⟩ | ⟨-, i, hd, hc, he, rfl⟩
  · exact absurd (eq_encode_of_decode hd) hclear
  · simp
  · simp [hp]
  · simp [hp]
  · have hcur := eq_encode_of_decode hd
    have hlegal := (commandError_eq_none.mp he).1
    cases i with
    | clear => exact absurd rfl hc
    | nop | abort => simp [effectOf]
    | count b =>
      have hp : s.phase = .count := by simpa [legalIn] using hlegal
      have hword : ∃ c, s.cur = encode (.count c) := ⟨b, hcur⟩
      simp [effectOf, hword, hp]
    | build | assign =>
      rw [legalIn, beq_iff_eq] at hlegal
      simp [effectOf, hcur, hlegal]
    | emitHdr | emitTree | emitSep =>
      rw [legalIn, beq_iff_eq] at hlegal
      simp [effectOf, emitHdrEffect, emitTreeEffect, emitSepEffect, emitAll_eq, hcur, hlegal]
    | encode b =>
      have hp : s.phase = .payload := by simpa [legalIn] using hlegal
      have hword : ∃ c, s.cur = encode (.encode c) := ⟨b, hcur⟩
      rw [effectOf, encodeByte_frame]
      simp [hword, hp]
    | flush =>
      rw [legalIn, beq_iff_eq] at hlegal
      rw [effectOf, flushEffect_frame]
      simp [hcur, hlegal]

/-- Settles O44: a stored tree is the one BUILD makes of the table, and TOTAL bounds the table's sum, so no merge wraps. -/
theorem storedTreeMeetsItsInvariants : Obligations.StoredTreeMeetsItsInvariants := by
  intro s t h ht
  obtain ⟨hbuild, -, hleaves, -, hmerges⟩ := h.hasTree t ht
  have inv := buildTree_invariant (h.total ▸ s.total.isLt) hbuild
  refine ⟨inv.sums t (by simp), by simpa using inv.leaves, BitVec.eq_of_toNat_eq ?_, ?_⟩
  · rw [h.total]
    simpa using inv.total
  · obtain ⟨k, hk, -, hperm⟩ := inv.ages
    have : s.merges.toNat = k := by rw [hmerges, hleaves, ← hk]; rfl
    rw [this]
    simpa using hperm

/-- Settles O5: in each of the three agendas the engine has the opportunity. -/
theorem stepRunsDecodedCommand : Obligations.StepRunsDecodedCommand := by
  intro s i rest w hbusy hd
  have hengine : ∀ u : State, u.busy = true → u.cur = s.cur → engineOrIdle u = exec i u := by
    intro u hu hcur
    simp [engineOrIdle, engineStep, fetchWord, hu, hcur, hd]
  refine ⟨fun h => ?_, fun h => ?_, fun h => ?_⟩ <;> rw [step, h]
  · exact hengine s hbusy rfl
  · exact hengine (withAgenda rest s) hbusy rfl
  · simpa [turnEnabled, cmdReady, hbusy] using hengine s hbusy rfl

/-- Settles O35: each field is read off STATUS's bits. -/
theorem statusFields : Obligations.StatusFields := by
  refine ⟨fun s => ⟨rfl, ?_, statusReg_getLsbD s 3, ?_, ?_, statusReg_getLsbD s 9, statusReg_getLsbD s 10, ?_, ?_⟩, rfl⟩
  · refine BitVec.eq_of_getLsbD_eq fun i hi => ?_
    simp [statusReg_getLsbD, hi]
  · refine BitVec.eq_of_getLsbD_eq fun i hi => ?_
    have h3 : ¬4 + i < 3 := by omega
    have h4 : ¬4 + i = 3 := by omega
    have h8 : 4 + i < 8 := by omega
    simp [statusReg_getLsbD, hi, h3, h4, h8]
  · rw [← degen_iff, statusReg_getLsbD]
    rfl
  · rw [statusReg_getLsbD]
    simp [outqNE]
  · refine BitVec.eq_of_getLsbD_eq fun i _ => ?_
    rw [BitVec.getLsbD_extractLsb', statusReg_getLsbD]
    grind

/-- Settles O36, by the pin's definition. -/
theorem errPinFollowsPhase : Obligations.ErrPinFollowsPhase :=
  ⟨fun s => by simp [errO], rfl⟩

/-- Settles O37: the table's rows by computation, the register reads by register. -/
theorem resetStateIsTheTable : Obligations.ResetStateIsTheTable := by
  refine ⟨rfl, rfl, rfl, tableGet_replicate 0, rfl, rfl, rfl, rfl, rfl, rfl, rfl, tableGet_replicate 0, tableGet_replicate 0,
    rfl, rfl, rfl, rfl, rfl, rfl, rfl, rfl, rfl, fun a ha => ?_, rfl, fun s => ⟨_, rfl, rfl⟩⟩
  exact regValue_reset fun h => ha (ofAddr_eq_ident h)

/-- Settles O55: the reset state is one more state after a reset, and nothing has been emitted in it. -/
theorem invariantsHoldAtReset : Obligations.InvariantsHoldAtReset :=
  ⟨resetState_agrees State.reset,
    { before := fun _ => rfl
      hdr := fun h => nomatch h
      tree := fun h => nomatch h
      payload := fun h => nomatch h
      done := fun h => nomatch h
      idlePacker := fun _ _ _ => ⟨rfl, rfl, rfl, rfl⟩
      outBytes := rfl }⟩

end Sys2Proof.Machine
end

section
/-! PROOFS. The register map, read from the register (spec/20_memory.md R53, R54). -/

namespace Sys2Proof.Machine

/-- The address column of R53 and R54, read from the register: whether register `r` stands at word address `n`. -/
def Reg.StandsAt (n : Nat) : Reg → Prop
  | .status => n = 0x000
  | .ident => n = 0x001
  | .total => n = 0x002
  | .leaves => n = 0x003
  | .nodes => n = 0x004
  | .merges => n = 0x005
  | .payloadBits => n = 0x006
  | .outBytes => n = 0x007
  | .packer => n = 0x008
  | .encCount => n = 0x009
  | .errInfo => n = 0x00A
  | .freq b => n = 0x100 + b.toNat
  | .codeLen b => n = 0x200 + b.toNat
  | .codeVal b w => n = 0x400 + 4 * b.toNat + w.toNat
  | .treeRec i => i ≤ 510 ∧ n = 0x800 + i
  | .reserved => 0x00B ≤ n ∧ n ≤ 0x0FF ∨ 0x300 ≤ n ∧ n ≤ 0x3FF ∨ 0x9FF ≤ n

/-- The register an address selects stands at that address. -/
theorem ofAddr_standsAt (a : RegAddr) : (Reg.ofAddr a).StandsAt a.toNat := by
  unfold Reg.ofAddr
  iterate 11 refine iteInduction id fun _ => ?_
  iterate 4
    refine iteInduction (fun _ => ?_) fun _ => ?_
    · simp only [Reg.StandsAt, BitVec.toNat_setWidth, BitVec.extractLsb'_toNat, Nat.shiftRight_eq_div_pow]
      omega
  simp only [Reg.StandsAt]
  omega

/-- An address selects the register that stands there. -/
theorem ofAddr_of_standsAt {a : RegAddr} {r : Reg} (h : r.StandsAt a.toNat) : Reg.ofAddr a = r := by
  cases r <;> rw [Reg.StandsAt] at h
  case freq b | codeLen b =>
    have hb : a.setWidth 8 = b := by bv_omega
    simp (disch := omega) only [Reg.ofAddr, if_neg, if_pos, hb]
  case codeVal b w =>
    have hb : a.extractLsb' 2 8 = b := by
      refine BitVec.eq_of_toNat_eq ?_
      rw [BitVec.extractLsb'_toNat, Nat.shiftRight_eq_div_pow]
      omega
    have hw : a.setWidth 2 = w := by bv_omega
    simp (disch := omega) only [Reg.ofAddr, if_neg, if_pos, hb, hw]
  case treeRec i =>
    have hi : a.toNat - 0x800 = i := by omega
    simp (disch := omega) only [Reg.ofAddr, if_neg, if_pos, hi]
  all_goals simp (disch := omega) only [Reg.ofAddr, if_neg, if_pos]

theorem ofAddr_eq_iff {a : RegAddr} {r : Reg} : Reg.ofAddr a = r ↔ r.StandsAt a.toNat :=
  ⟨fun h => h ▸ ofAddr_standsAt a, ofAddr_of_standsAt⟩

/-! ### Reads by address -/

theorem regRead_of_standsAt {a : RegAddr} {r : Reg} (h : r.StandsAt a.toNat) (s : State) : regRead a s = regValue r s := by
  rw [regRead, ofAddr_eq_iff.mpr h]

theorem regRead_freq (b : Byte) (s : State) : regRead (0x100 + b.setWidth 12) s = tableGet s.freq b :=
  regRead_of_standsAt (r := .freq b) (by simp only [Reg.StandsAt]; bv_omega) s

theorem regRead_codeLen (b : Byte) (s : State) : regRead (0x200 + b.setWidth 12) s =
    (BitVec.ofBool (present b s) ++ tableGet s.codeLen b).setWidth 64 :=
  regRead_of_standsAt (r := .codeLen b) (by simp only [Reg.StandsAt]; bv_omega) s

theorem regRead_codeVal (b : Byte) (w : BitVec 2) (s : State) : regRead (0x400 + 4 * b.setWidth 12 + w.setWidth 12) s =
    (tableGet s.codeVal b).extractLsb' (64 * w.toNat) 64 :=
  regRead_of_standsAt (r := .codeVal b w) (by simp only [Reg.StandsAt]; bv_omega) s

theorem regRead_treeRec {i : Nat} (hi : i ≤ 510) (s : State) : regRead (0x800 + BitVec.ofNat 12 i) s = treeRecord i s :=
  regRead_of_standsAt (r := .treeRec i) (by simp only [Reg.StandsAt]; bv_omega) s

/-! ### The addresses of a kind of register -/

theorem exists_codeLen_iff {a : RegAddr} : (∃ b, Reg.ofAddr a = .codeLen b) ↔ 0x200 ≤ a.toNat ∧ a.toNat ≤ 0x2FF := by
  simp only [ofAddr_eq_iff, Reg.StandsAt]
  refine ⟨fun ⟨b, h⟩ => by omega, fun h => ⟨BitVec.ofNat 8 (a.toNat - 0x200), ?_⟩⟩
  rw [BitVec.toNat_ofNat]
  omega

theorem exists_codeVal_iff {a : RegAddr} : (∃ b w, Reg.ofAddr a = .codeVal b w) ↔ 0x400 ≤ a.toNat ∧ a.toNat ≤ 0x7FF := by
  simp only [ofAddr_eq_iff, Reg.StandsAt]
  refine ⟨fun ⟨b, w, h⟩ => by omega, fun h => ⟨BitVec.ofNat 8 ((a.toNat - 0x400) / 4), BitVec.ofNat 2 (a.toNat % 4), ?_⟩⟩
  rw [BitVec.toNat_ofNat, BitVec.toNat_ofNat]
  omega

theorem exists_treeRec_iff {a : RegAddr} : (∃ i, Reg.ofAddr a = .treeRec i) ↔ 0x800 ≤ a.toNat ∧ a.toNat ≤ 0x9FE := by
  simp only [ofAddr_eq_iff, Reg.StandsAt]
  exact ⟨fun ⟨i, h⟩ => by omega, fun h => ⟨a.toNat - 0x800, by omega⟩⟩

end Sys2Proof.Machine
end

section
/-! PROOFS. Which registers the command in CUR writes, and so which reads may be free while BUSY = 1 (spec/20_memory.md R61, R64). -/

namespace Sys2Proof.Machine

/-! ### The words and their commands -/

/-- The word of a command decodes to that command (R84, R85). -/
theorem decode_encode (i : Instr) : decode (encode i) = .instr i := by
  cases i with
  | count b => revert b; decide +kernel
  | encode b => revert b; decide +kernel
  | _ => rfl

theorem commandOf_of_reserved {opc : Nat} (h : 0xB ≤ opc) (arg : Byte) : commandOf opc arg = .reject .reservedOpcode := by
  unfold commandOf
  split
  case h_12 => rfl
  all_goals omega

/-- The decoder rejects every malformed word (R85, R203). -/
theorem decode_of_malformed {w : CmdWord} (h : Malformed w) : ∃ r, decode w = .reject r := by
  cases hd : decode w with
  | reject r => exact ⟨r, rfl⟩
  | instr i =>
    obtain ⟨hrsv, harg, hcmd⟩ := decode_eq_instr hd
    rcases h with hopc | hfield | ⟨hcount, hencode, hstray⟩
    · exact nomatch (commandOf_of_reserved hopc _).symm.trans hcmd
    · exact absurd hrsv hfield
    · have hplain : (fieldsOf w).takesByte = false := by
        simpa [Fields.takesByte, fieldsOf] using ⟨hcount, hencode⟩
      exact absurd (arg_eq_zero harg hplain) hstray

theorem legalIn_of_wrongPhase {i : Instr} {p : Phase} (h : WrongPhase i p) : legalIn i p = false := by
  cases i with
  | nop | clear | abort => exact h.elim
  | _ => simpa [legalIn, WrongPhase] using h

/-- A command that is not legal in ERROR completes outside it only. -/
theorem ne_error_of_legal {i : Instr} {p : Phase} (hc : i ≠ .clear) (h : legalIn i p = true) : p ≠ .error := by
  rintro rfl
  cases i with
  | clear => exact hc rfl
  | _ => cases h

/-! ### The registers the command in CUR writes -/

section
variable {s : State} {i : Instr} {a : RegAddr}

theorem readIsFree_of_idle (h : s.busy = false) (a : RegAddr) : readIsFree a s = false := by simp [readIsFree, h]

theorem readIsFree_of_busy (h : s.busy = true) : readIsFree a s = curWrites s (Reg.ofAddr a) := by simp [readIsFree, h]

theorem curWrites_of_clear (hd : decode s.cur = .instr .clear) (r : Reg) :
    curWrites s r = true ↔ r = .status ∨ commandWrites .clear r = true := by
  simp [curWrites, fetchWord, hd]

theorem curWrites_of_reject (hd : ∃ e, decode s.cur = .reject e) (hp : s.phase ≠ .error) (r : Reg) :
    curWrites s r = true ↔ r = .status ∨ r = .errInfo := by
  obtain ⟨e, hd⟩ := hd
  simp [curWrites, fetchWord, hd, hp]

/-- A word that ERROR discards writes STATUS alone (R209). -/
theorem curWrites_of_discarded (hd : decode s.cur ≠ .instr .clear) (hp : s.phase = .error) (r : Reg) :
    curWrites s r = true ↔ r = .status := by
  cases hw : decode s.cur with
  | reject e => simp [curWrites, fetchWord, hw, hp]
  | instr i => cases i <;> simp_all [curWrites, fetchWord]

/-- A command that raises an error writes STATUS and ERRINFO alone (R205). -/
theorem curWrites_of_raises {e : ErrCode} (hd : decode s.cur = .instr i) (hp : s.phase ≠ .error)
    (he : commandError i s = some e) (r : Reg) : curWrites s r = true ↔ r = .status ∨ r = .errInfo := by
  cases i with
  | clear => simp [commandError, legalIn, ownError] at he
  | _ => simp [curWrites, fetchWord, hd, hp, he]

theorem curWrites_of_completes (hd : decode s.cur = .instr i) (hp : s.phase ≠ .error)
    (he : commandError i s = none) (r : Reg) : curWrites s r = true ↔ r = .status ∨ commandWrites i r = true := by
  cases i with
  | clear => exact curWrites_of_clear hd r
  | _ => simp [curWrites, fetchWord, hd, hp, he]

end

/-! ### The sets of R64 -/

theorem commandWrites_build_iff {r : Reg} :
    commandWrites .build r = true ↔ r = .leaves ∨ r = .nodes ∨ r = .merges ∨ ∃ i, r = .treeRec i := by
  cases r <;> simp [commandWrites]

theorem commandWrites_assign_iff {r : Reg} :
    commandWrites .assign r = true ↔ (∃ b, r = .codeLen b) ∨ ∃ b w, r = .codeVal b w := by
  cases r <;> simp [commandWrites]

theorem commandWrites_clear_iff {r : Reg} : commandWrites .clear r = true ↔ r ≠ .ident ∧ r ≠ .reserved := by
  simp [commandWrites]

theorem commandWrites_reserved (i : Instr) : commandWrites i .reserved = false := by cases i <;> rfl

/-- No command writes a reserved address (R54, R64). -/
theorem curWrites_reserved (s : State) : curWrites s .reserved = false := by
  cases hd : decode s.cur with
  | reject e => simp [curWrites, fetchWord, hd]
  | instr i =>
    cases i with
    | clear => simp [curWrites, fetchWord, hd, commandWrites_reserved]
    | _ => simp only [curWrites, fetchWord, hd, commandWrites_reserved]; split <;> simp

/-! ### The free reads, command by command -/

section
variable {s : State} {a : RegAddr} (hb : s.busy = true)
include hb

theorem readIsFree_of_completes {i : Instr} (hcur : s.cur = encode i) (hc : i ≠ .clear) (hlegal : legalIn i s.phase = true)
    (hown : ownError i s = none) :
    readIsFree a s = true ↔ Reg.ofAddr a = .status ∨ commandWrites i (Reg.ofAddr a) = true := by
  rw [readIsFree_of_busy hb]
  exact curWrites_of_completes (hcur ▸ decode_encode i) (ne_error_of_legal hc hlegal) (commandError_eq_none.mpr ⟨hlegal, hown⟩) _

theorem readIsFree_count {b : Byte} (hp : s.phase = .count) (ht : s.total ≠ BitVec.allOnes 64) (hcur : s.cur = encode (.count b)) :
    readIsFree a s = true ↔ a = 0x000 ∨ a = 0x002 ∨ a = 0x100 + b.setWidth 12 := by
  rw [readIsFree_of_completes hb hcur (by simp) (by simp [legalIn, hp]) (by simpa [ownError] using ht)]
  simp only [commandWrites, Bool.or_eq_true, beq_iff_eq, ofAddr_eq_iff, Reg.StandsAt]
  bv_omega

theorem readIsFree_build (hp : s.phase = .count) (ht : s.total ≠ 0) (hcur : s.cur = encode .build) :
    readIsFree a s = true ↔ a = 0x000 ∨ a = 0x003 ∨ a = 0x004 ∨ a = 0x005 ∨ (0x800 ≤ a.toNat ∧ a.toNat ≤ 0x9FE) := by
  rw [readIsFree_of_completes hb hcur (by simp) (by simp [legalIn, hp]) (by simpa [ownError] using ht),
    commandWrites_build_iff, exists_treeRec_iff]
  simp only [ofAddr_eq_iff, Reg.StandsAt]
  bv_omega

theorem readIsFree_assign (hp : s.phase = .built) (hcur : s.cur = encode .assign) :
    readIsFree a s = true ↔ a = 0x000 ∨ (0x200 ≤ a.toNat ∧ a.toNat ≤ 0x2FF) ∨ (0x400 ≤ a.toNat ∧ a.toNat ≤ 0x7FF) := by
  rw [readIsFree_of_completes hb hcur (by simp) (by simp [legalIn, hp]) rfl, commandWrites_assign_iff, exists_codeLen_iff,
    exists_codeVal_iff]
  simp only [ofAddr_eq_iff, Reg.StandsAt]
  bv_omega

theorem readIsFree_emit (h : s.phase = .coded ∧ s.cur = encode .emitHdr ∨ s.phase = .hdr ∧ s.cur = encode .emitTree ∨
      s.phase = .tree ∧ s.cur = encode .emitSep) :
    readIsFree a s = true ↔ a = 0x000 ∨ a = 0x007 := by
  have free : readIsFree a s = true ↔ Reg.ofAddr a = .status ∨ Reg.ofAddr a = .outBytes := by
    rcases h with ⟨hp, hcur⟩ | ⟨hp, hcur⟩ | ⟨hp, hcur⟩ <;>
      rw [readIsFree_of_completes hb hcur (by simp) (by simp [legalIn, hp]) rfl, commandWrites, beq_iff_eq]
  rw [free, ofAddr_eq_iff, ofAddr_eq_iff, Reg.StandsAt, Reg.StandsAt]
  bv_omega

theorem readIsFree_flush (hp : s.phase = .payload) (hcur : s.cur = encode .flush) :
    readIsFree a s = true ↔ a = 0x000 ∨ a = 0x007 ∨ a = 0x008 := by
  rw [readIsFree_of_completes hb hcur (by simp) (by simp [legalIn, hp]) rfl]
  simp only [commandWrites, Bool.or_eq_true, beq_iff_eq, ofAddr_eq_iff, Reg.StandsAt]
  bv_omega

theorem readIsFree_encode {b : Byte} (hp : s.phase = .payload) (hf : tableGet s.freq b ≠ 0) (hcur : s.cur = encode (.encode b)) :
    readIsFree a s = true ↔ a = 0x000 ∨ a = 0x006 ∨ a = 0x007 ∨ a = 0x008 ∨ a = 0x009 := by
  rw [readIsFree_of_completes hb hcur (by simp) (by simp [legalIn, hp]) (by simpa [ownError] using hf)]
  simp only [commandWrites, Bool.or_eq_true, beq_iff_eq, ofAddr_eq_iff, Reg.StandsAt]
  bv_omega

theorem readIsFree_clear (hcur : s.cur = encode .clear) :
    readIsFree a s = true ↔
      a ≠ 0x001 ∧ ¬ (0x00B ≤ a.toNat ∧ a.toNat ≤ 0x0FF) ∧ ¬ (0x300 ≤ a.toNat ∧ a.toNat ≤ 0x3FF) ∧ a.toNat < 0x9FF := by
  rw [readIsFree_of_busy hb, curWrites_of_clear (hcur ▸ decode_encode .clear), commandWrites_clear_iff]
  simp only [ne_eq, ofAddr_eq_iff, Reg.StandsAt]
  bv_omega

/-- A word that raises an error leaves STATUS and ERRINFO free (log entry 5). -/
theorem readIsFree_of_erring (h : ∀ r, curWrites s r = true ↔ r = .status ∨ r = .errInfo) :
    readIsFree a s = true ↔ a = 0x000 ∨ a = 0x00A := by
  rw [readIsFree_of_busy hb, h, ofAddr_eq_iff, ofAddr_eq_iff, Reg.StandsAt, Reg.StandsAt]
  bv_omega

theorem readIsFree_of_raises {i : Instr} {e : ErrCode} (hd : decode s.cur = .instr i) (hp : s.phase ≠ .error)
    (he : commandError i s = some e) : readIsFree a s = true ↔ a = 0x000 ∨ a = 0x00A :=
  readIsFree_of_erring hb (curWrites_of_raises hd hp he)

theorem readIsFree_abort_or_malformed (hp : s.phase ≠ .error) (h : s.cur = encode .abort ∨ Malformed s.cur) :
    readIsFree a s = true ↔ a = 0x000 ∨ a = 0x00A := by
  rcases h with hcur | hm
  · exact readIsFree_of_raises hb (hcur ▸ decode_encode .abort) hp (e := .ioFailure)
      (by simp [commandError, legalIn, ownError, hp])
  · exact readIsFree_of_erring hb (curWrites_of_reject (decode_of_malformed hm) hp)

theorem readIsFree_discarded (hp : s.phase = .error) (hcur : s.cur ≠ 0x10000000) : readIsFree a s = true ↔ a = 0x000 := by
  rw [readIsFree_of_busy hb, curWrites_of_discarded (fun hd => hcur (eq_encode_of_decode hd)) hp, ofAddr_eq_iff, Reg.StandsAt]
  bv_omega

theorem readIsFree_nop (hcur : s.cur = encode .nop) : readIsFree a s = true ↔ a = 0x000 := by
  by_cases hp : s.phase = .error
  · exact readIsFree_discarded hb hp (by rw [hcur]; decide)
  · rw [readIsFree_of_completes hb hcur (by simp) (by simp [legalIn, hp]) rfl]
    simp only [commandWrites, Bool.false_eq_true, or_false, ofAddr_eq_iff, Reg.StandsAt]
    bv_omega

end

end Sys2Proof.Machine
end

section
/-! PROOFS. The step of a host's turn, and what a step does to the bytes emitted (spec/20_memory.md R52, R56, R57, R62). -/

namespace Sys2Proof.Machine

/-! ### The host's turn -/

theorem step_of_enabled {s : State} {turn : Turn} {rest : List Turn} (h : s.host.agenda = turn :: rest) (hturn : turn ≠ .engine)
    (hen : turnEnabled turn s = true) : step s = .next (hostStep turn (withAgenda rest s)) := by
  cases turn with
  | engine => exact absurd rfl hturn
  | _ => simp [step, h, hen]

theorem step_of_held {s : State} {turn : Turn} {rest : List Turn} (h : s.host.agenda = turn :: rest)
    (hen : turnEnabled turn s = false) : step s = engineOrIdle s := by
  cases turn with
  | engine => cases hen
  | _ => simp [step, h, hen]

theorem step_drain {s : State} {x : Byte} {q : List Byte} {rest : List Turn} (h : s.host.agenda = .drain :: rest)
    (hq : s.outq = x :: q) : step s =
      .next { s with outq := q, host := { s.host with agenda := rest, drained := s.host.drained ++ [x] } } := by
  rw [step_of_enabled h (by simp) (by simp [turnEnabled, outValid, outqNE, hq])]
  simp [hostStep, drainByte, hq, withAgenda]

/-! ### The host's read -/

theorem commandError_withAgenda (i : Instr) (rest : List Turn) (s : State) :
    commandError i (withAgenda rest s) = commandError i s := by
  cases i <;> rfl

theorem curWrites_withAgenda (rest : List Turn) (s : State) : curWrites (withAgenda rest s) = curWrites s := by
  funext r
  simp only [curWrites, fetchWord, commandError_withAgenda, withAgenda_cur, withAgenda_phase]

theorem readIsFree_withAgenda (a : RegAddr) (rest : List Turn) (s : State) :
    readIsFree a (withAgenda rest s) = readIsFree a s := by
  rw [readIsFree, readIsFree, curWrites_withAgenda, withAgenda_busy]

theorem regRead_withAgenda (a : RegAddr) (rest : List Turn) (s : State) : regRead a (withAgenda rest s) = regRead a s := by
  rw [regRead, regRead]
  cases Reg.ofAddr a <;> rfl

section
variable {s : State} {a : RegAddr} {rest : List Turn} (h : s.host.agenda = .read a :: rest)
include h

theorem step_read_exact (hfree : readIsFree a s = false) : step s =
    .next { s with host := { s.host with agenda := rest, answers := s.host.answers ++ [(a, regRead a s)] } } := by
  rw [step_of_enabled h (by simp) rfl, hostStep, readReg, readIsFree_withAgenda, hfree, regRead_withAgenda]
  rfl

theorem step_read_free (hfree : readIsFree a s = true) : step s =
    .next { s with host := { s.host with
      agenda := rest, answers := s.host.answers ++ [(a, Config.freeRead s.host.draws)], draws := s.host.draws + 1 } } := by
  rw [step_of_enabled h (by simp) rfl, hostStep, readReg, readIsFree_withAgenda, hfree]
  rfl

end

/-! ### The engine's output -/

/-- The packing loop only appends to OUTQ, so what stands at its head stays there (R161). -/
theorem packLoop_outq {q : List Byte} (fuel : Nat) (v : CodeWord) (n f : Nat) {s : State} (h : q <+: s.outq) :
    q <+: (packLoop fuel v n f s).outq := by
  induction fuel generalizing v n f s with
  | zero => exact h
  | succ m ih =>
    rw [packLoop]
    split
    · exact h
    · dsimp only
      split
      · exact ih _ _ _ (h.trans (List.prefix_append ..))
      · exact ih _ _ _ h

theorem encodeByte_outq (b : Byte) (s : State) : s.outq <+: (encodeByte b s).outq :=
  packLoop_outq _ _ _ _ List.prefix_rfl

theorem flushEffect_outq (s : State) : s.outq <+: (flushEffect s).outq := by
  unfold flushEffect
  split
  · exact List.prefix_rfl
  · exact List.prefix_append ..

theorem emitAll_outq (xs : List Byte) (s : State) : s.outq <+: (emitAll xs s).outq := by
  rw [emitAll_eq]
  exact List.prefix_append ..

/-- No command but CLEAR takes a byte out of OUTQ. -/
theorem effectOf_outq {i : Instr} (hc : i ≠ .clear) (s : State) : s.outq <+: (effectOf i s).outq := by
  cases i with
  | clear => exact absurd rfl hc
  | emitHdr | emitTree | emitSep => exact emitAll_outq _ s
  | encode b => exact encodeByte_outq b s
  | flush => exact flushEffect_outq s
  | _ => exact List.prefix_rfl

/-- No command but CLEAR touches the host's side. -/
theorem effectOf_host {i : Instr} (hc : i ≠ .clear) (s : State) : (effectOf i s).host = s.host := by
  cases i with
  | clear => exact absurd rfl hc
  | emitHdr | emitTree | emitSep => simp [effectOf, emitHdrEffect, emitTreeEffect, emitSepEffect, emitAll_eq]
  | encode b => rw [effectOf, encodeByte_frame]
  | flush => rw [effectOf, flushEffect_frame]
  | _ => rfl

theorem engineStep_agenda {s t : State} (h : engineStep s = .next t) : t.host.agenda = s.host.agenda := by
  rcases engineStep_cases h with ⟨-, rfl⟩ | ⟨-, -, rfl⟩ | ⟨-, -, rfl⟩ | ⟨-, i, e, -, -, -, rfl⟩ | ⟨-, i, -, hc, -, rfl⟩
  · rfl
  · rfl
  · rfl
  · rfl
  · rw [finish_host, effectOf_host hc]

/-- The engine's step appends to what has been emitted, or is CLEAR's. -/
theorem engineStep_emitted {s t : State} (h : engineStep s = .next t) :
    emitted s <+: emitted t ∨ s.cur = encode .clear ∧ t = resetState s := by
  rcases engineStep_cases h with ⟨hd, rfl⟩ | ⟨-, -, rfl⟩ | ⟨-, -, rfl⟩ | ⟨-, i, e, -, -, -, rfl⟩ | ⟨-, i, -, hc, -, rfl⟩
  · exact .inr ⟨eq_encode_of_decode hd, rfl⟩
  · exact .inl List.prefix_rfl
  · exact .inl List.prefix_rfl
  · exact .inl List.prefix_rfl
  · refine .inl ?_
    rw [emitted, emitted, finish_host, effectOf_host hc, finish_outq]
    exact (List.prefix_append_right_inj _).mpr (effectOf_outq hc s)

/-- No host step but `reset` changes what has been emitted: `drain` moves the head of OUTQ to the end of the bytes drained (R56). -/
theorem hostStep_emitted {turn : Turn} (hr : turn ≠ .reset) (s : State) : emitted (hostStep turn s) = emitted s := by
  cases turn with
  | engine | issue w => rfl
  | read a => rw [hostStep, readReg]; split <;> rfl
  | drain =>
    cases hq : s.outq with
    | nil => simp [hostStep, drainByte, hq]
    | cons x q => simp [hostStep, drainByte, emitted, hq]
  | reset => exact absurd rfl hr

end Sys2Proof.Machine
end

section
/-! PROOFS. The bits of a code value at and above the code's length (spec/20_memory.md R55, spec/42_code_assigner.md R131). -/

namespace Sys2Proof.Machine

/-- Every code value is 0 at and above its length (R55). -/
def CodeTable.Clear (c : CodeTable) : Prop :=
  ∀ b i, (tableGet c.len b).toNat ≤ i → (tableGet c.val b).getLsbD i = false

theorem emptyCodes_clear : emptyCodes.Clear := fun b i _ => by simp

theorem leafPairs_length_pos (t : Tree) : 0 < t.leafPairs.length := by
  induction t with
  | leaf s f => exact Nat.zero_lt_one
  | internal f a l r ihl _ =>
    rw [Tree.leafPairs, List.length_append]
    exact Nat.add_pos_left ihl _

/-- The walk keeps the values clear: at depth `d` the path so far is in the bits below `d`, and a tree of at most `256 - d` leaves
keeps each depth within the 8 bits of a length. -/
theorem walk_clear {t : Tree} {d : Nat} {v : CodeWord} {c : CodeTable} (hd : d + t.leafPairs.length ≤ 256)
    (hv : ∀ i, d ≤ i → v.getLsbD i = false) (hc : c.Clear) : (walk t d v c).Clear := by
  induction t generalizing d v c with
  | leaf s f =>
    have hlen : (BitVec.ofNat 8 d).toNat = d := Nat.mod_eq_of_lt (by simpa [Tree.leafPairs] using hd)
    intro b i hi
    simp only [walk, tableGet_tableSet] at hi ⊢
    split at hi
    · next hb => simpa [hb] using hv i (hlen ▸ hi)
    · next hb => simpa [hb] using hc b i hi
  | internal f a l r ihl ihr =>
    rw [Tree.leafPairs, List.length_append] at hd
    have hl := leafPairs_length_pos l
    have hr := leafPairs_length_pos r
    have hleft : ∀ i, d + 1 ≤ i → v.getLsbD i = false := fun i hi => hv i (by omega)
    have hright : ∀ i, d + 1 ≤ i → (v ||| 1#256 <<< d).getLsbD i = false := fun i hi => by
      have : i - d ≠ 0 := by omega
      simp [hleft i hi, this]
    exact ihr (by omega) hright (ihl (by omega) hleft hc)

/-- A stored tree has as many leaves as bytes occur (R30, R113). -/
theorem RegistersAgree.leafPairs_length {s : State} (h : RegistersAgree s) {t : Tree} (ht : s.tree = some t) :
    t.leafPairs.length = leafCount s.freq := by
  have inv := buildTree_invariant (h.total ▸ s.total.isLt) (h.hasTree t ht).1
  simpa [length_occurring] using inv.leaves.length_eq

theorem RegistersAgree.codesOf_clear {s : State} (h : RegistersAgree s) : (codesOf s.tree).Clear := by
  cases ht : s.tree with
  | none => exact emptyCodes_clear
  | some t =>
    have hle := leafCount_le s.freq
    rw [← h.leafPairs_length ht] at hle
    exact walk_clear (by omega) (by simp) emptyCodes_clear

/-- The code registers are clear at and above the lengths. -/
theorem RegistersAgree.codeVal_clear {s : State} (h : RegistersAgree s) (b : Byte) {i : Nat} (hi : (tableGet s.codeLen b).toNat ≤ i) :
    (tableGet s.codeVal b).getLsbD i = false := by
  obtain ⟨hlen, hval⟩ := h.codes
  have hclear : (codesOf (if s.codesV then s.tree else none)).Clear := by
    split
    · exact h.codesOf_clear
    · exact emptyCodes_clear
  rw [hval]
  exact hclear b i (hlen ▸ hi)

end Sys2Proof.Machine
end

section
/-! PROOFS. The statements about the host's steps and the register reads (spec/20_memory.md). -/

namespace Sys2Proof.Machine

/-- Settles O28: the host's turn is taken when `cmd_ready` = 1 and held otherwise, and the engine's step keeps the agenda. -/
theorem issueWaitsForReady : Obligations.IssueWaitsForReady := by
  intro s w rest h
  refine ⟨fun hb => step_of_enabled h (by simp) (by simp [turnEnabled, cmdReady, hb]), fun hb => ?_⟩
  have hstep : step s = engineStep s := by
    rw [step_of_held h (by simp [turnEnabled, cmdReady, hb]), engineOrIdle, if_pos hb]
  exact ⟨hstep, fun t ht => (engineStep_agenda (hstep.symm.trans ht)).trans h⟩

/-- Settles O31: a read is exact or free, and both steps write the host's record alone. -/
theorem readsAreSilentAndExact : Obligations.ReadsAreSilentAndExact := by
  intro s a rest h
  cases hfree : readIsFree a s with
  | false => exact ⟨_, _, step_read_exact h hfree, fun _ => rfl⟩
  | true => exact ⟨_, _, step_read_free h hfree, fun hb => by simp [readIsFree_of_idle hb] at hfree⟩

/-- Settles O29: the engine appends at the tail, `drain` moves the head over, and only CLEAR and reset do anything else. -/
theorem outputIsFirstInFirstOut : Obligations.OutputIsFirstInFirstOut := by
  refine ⟨fun x s => rfl, fun s x q rest => step_drain, fun s t hstep => ?_⟩
  suffices h : emitted s <+: emitted t ∨
      t.outq = [] ∧ HuffReset t ∧ (s.busy = true ∧ s.cur = 0x10000000 ∨ s.host.agenda.head? = some .reset) from
    h.imp_left fun ⟨new, hnew⟩ => ⟨new, hnew.symm⟩
  rcases step_cases hstep with ⟨hb, ht⟩ | ⟨rest, -, hb, ht⟩ | ⟨-, rfl | ⟨rest, -, rfl⟩⟩ | ⟨turn, rest, hag, -, -, rfl⟩
  · exact (engineStep_emitted ht).imp_right fun ⟨hcur, e⟩ => e ▸ ⟨rfl, rfl, .inl ⟨hb, hcur⟩⟩
  · exact (engineStep_emitted ht).imp_right fun ⟨hcur, e⟩ => e ▸ ⟨rfl, rfl, .inl ⟨hb, hcur⟩⟩
  · exact .inl List.prefix_rfl
  · exact .inl List.prefix_rfl
  · by_cases hr : turn = .reset
    · subst hr
      exact .inr ⟨rfl, rfl, .inr (by rw [hag]; rfl)⟩
    · rw [hostStep_emitted hr]
      exact .inl List.prefix_rfl

/-- Settles O32: the free reads command by command, then the step of a read that is not free and of one that is. -/
theorem busyReadsAreFreeOnlyWhereWritten : Obligations.BusyReadsAreFreeOnlyWhereWritten := by
  refine ⟨fun _ a hb => readIsFree_of_idle hb a, fun _ _ _ hb => readIsFree_count hb, fun _ _ => readIsFree_build,
    fun _ _ => readIsFree_assign, fun _ _ => readIsFree_emit, fun _ _ => readIsFree_flush, fun _ _ _ hb => readIsFree_encode hb,
    fun _ _ => readIsFree_clear, fun _ _ => readIsFree_abort_or_malformed, fun s a hb hp h => ?_, fun _ _ => readIsFree_discarded,
    fun _ _ => readIsFree_nop, fun _ _ _ h hfree => ⟨_, step_read_exact h hfree, rfl⟩,
    fun _ _ _ h hfree => ⟨_, step_read_free h hfree, rfl, rfl⟩⟩
  obtain ⟨i, e, hd, he⟩ : ∃ i e, decode s.cur = .instr i ∧ commandError i s = some e := by
    rcases h with ⟨i, hd, hw⟩ | ⟨hcur, hcount, ht⟩ | ⟨b, hcur, hpay, hf⟩ | ⟨b, hcur, hcount, ht⟩
    · exact ⟨i, .sequenceError, hd, by simp [commandError, legalIn_of_wrongPhase hw]⟩
    · exact ⟨.build, .emptyInput, hcur ▸ decode_encode _, by simp [commandError, legalIn, ownError, hcount, ht]⟩
    · exact ⟨.encode b, .symbolAbsent, hcur ▸ decode_encode _, by simp [commandError, legalIn, ownError, hpay, hf]⟩
    · exact ⟨.count b, .countOverflow, hcur ▸ decode_encode _, by simp [commandError, legalIn, ownError, hcount, ht]⟩
  exact readIsFree_of_raises hb hd hp he

/-- Settles O33: each row reads the register that stands at its address. -/
theorem registerMapRows : Obligations.RegisterMapRows := by
  refine fun s => ⟨rfl, rfl, rfl, rfl, rfl, rfl, rfl, rfl, ?_, rfl, rfl, fun b => regRead_freq b s, fun b => ?_,
    fun b w => regRead_codeVal b w s, fun i hi => ?_⟩
  · show (s.fill ++ s.acc).setWidth 64 = _
    rw [BitVec.setWidth_append_eq_shiftLeft_setWidth_or, BitVec.or_comm]
  · rw [regRead_codeLen, BitVec.setWidth_append_eq_shiftLeft_setWidth_or, BitVec.or_comm]
    have hpresent : present b s = true ↔ s.codesV = true ∧ tableGet s.freq b ≠ 0 := by simp [present]
    simp only [← hpresent]
    cases present b s <;> rfl
  · rw [regRead_treeRec hi, treeRecord]
    cases s.tree with
    | none => rfl
    | some t =>
      dsimp only
      cases t.preorder[i]? <;> rfl

/-- Settles O34, by the register map: the three ranges are the addresses at which no register stands. -/
theorem reservedAddressesReadZero : Obligations.ReservedAddressesReadZero := by
  intro a s h
  have hr : Reg.ofAddr a = .reserved := ofAddr_eq_iff.mpr h
  rw [regRead, readIsFree, hr, curWrites_reserved, Bool.and_false]
  exact ⟨rfl, rfl⟩

/-- Settles O38: the words are adjacent parts of the value, and the code walk leaves it clear from its length up. -/
theorem codeWordsMakeUpTheValue : Obligations.CodeWordsMakeUpTheValue := by
  refine ⟨fun s b => ?_, fun s b h => ⟨h.codeVal_clear b (Nat.le_of_lt_succ (tableGet s.codeLen b).isLt), fun i => h.codeVal_clear b⟩⟩
  have word : ∀ w : BitVec 2, regRead (0x400 + w.setWidth 12 + 4 * b.setWidth 12) s =
      (tableGet s.codeVal b).extractLsb' (64 * w.toNat) 64 := by
    intro w
    rw [← regRead_codeVal, add_right_comm]
  have w0 : regRead (0x400 + 4 * b.setWidth 12) s = (tableGet s.codeVal b).extractLsb' 0 64 := word 0
  have w1 : regRead (0x401 + 4 * b.setWidth 12) s = (tableGet s.codeVal b).extractLsb' 64 64 := word 1
  have w2 : regRead (0x402 + 4 * b.setWidth 12) s = (tableGet s.codeVal b).extractLsb' 128 64 := word 2
  have w3 : regRead (0x403 + 4 * b.setWidth 12) s = (tableGet s.codeVal b).extractLsb' 192 64 := word 3
  rw [w0, w1, w2, w3, BitVec.extractLsb'_append_extractLsb'_eq_extractLsb' (by decide),
    BitVec.extractLsb'_append_extractLsb'_eq_extractLsb' (by decide), BitVec.extractLsb'_append_extractLsb'_eq_extractLsb' (by decide)]
  exact BitVec.extractLsb'_eq_self

end Sys2Proof.Machine
end

section
/-! PROOFS. What a rejected word does in the engine's step, that every step completes, and which lines the assembler accepts
(spec/30_encoding.md R82 to R87). -/

namespace Sys2Proof.Machine

/-! ### Rejected words -/

/-- A malformed word runs as no command (R85, R203). -/
theorem engineStep_of_malformed {s : State} (h : Malformed s.cur) : engineStep s = execIllegal s := by
  obtain ⟨r, hd⟩ := decode_of_malformed h
  simp [engineStep, fetchWord, hd]

theorem execIllegal_of_ne_error {s : State} (hp : s.phase ≠ .error) : execIllegal s = .next (raise .illegalCommand s) := if_neg hp

theorem execIllegal_of_error {s : State} (hp : s.phase = .error) : execIllegal s = .next (finish s) := if_pos hp

/-- A word with the NOP opcode that is not malformed has its other two fields 0, so it is NOP's word. -/
theorem malformed_of_nop_opcode {w : CmdWord} (hopc : w.extractLsb' 28 4 = 0x0) (hw : w ≠ 0x00000000) : Malformed w := by
  by_contra h
  simp only [Malformed, not_or, not_and, not_not] at h
  obtain ⟨-, hrsv, harg⟩ := h
  have harg := harg (by simp [hopc]) (by simp [hopc])
  apply hw
  calc w = w.extractLsb' 28 4 ++ (w.extractLsb' 8 20 ++ w.extractLsb' 0 8) := (fieldsOf_append w).symm
    _ = 0x00000000 := by rw [hopc, hrsv, harg]; rfl

/-! ### Completion -/

theorem exec_next (i : Instr) (s : State) : ∃ t, exec i s = .next t ∧ t.busy = false := by
  by_cases hc : i = .clear
  · subst hc
    exact ⟨resetState s, rfl, rfl⟩
  · rw [exec_eq_runCommand hc]
    exact runCommand_next i (effectOf i) s

theorem execIllegal_next (s : State) : ∃ t, execIllegal s = .next t ∧ t.busy = false := by
  unfold execIllegal
  split
  · exact ⟨finish s, rfl, rfl⟩
  · exact ⟨raise .illegalCommand s, rfl, rfl⟩

theorem engineStep_next (s : State) : ∃ t, engineStep s = .next t ∧ t.busy = false := by
  unfold engineStep
  split
  · exact exec_next _ s
  · exact execIllegal_next s

theorem engineOrIdle_next (s : State) : ∃ t, engineOrIdle s = .next t := by
  unfold engineOrIdle
  split
  · exact (engineStep_next s).imp fun _ h => h.1
  · exact ⟨s, rfl⟩

theorem step_next (s : State) : ∃ t, step s = .next t := by
  unfold step
  split
  · exact engineOrIdle_next s
  · exact engineOrIdle_next _
  · split
    · exact ⟨_, rfl⟩
    · exact engineOrIdle_next s

/-! ### The assembler's lines -/

theorem wellFormed_plain_iff {m : String} :
    ({ mnemonic := m, operand := none } : SourceLine).wellFormed = true ↔ m ∈ plainMnemonics := by
  simp [SourceLine.wellFormed]

theorem wellFormed_operand_iff {m : String} {n : Nat} :
    ({ mnemonic := m, operand := some n } : SourceLine).wellFormed = true ↔ m ∈ byteMnemonics ∧ n < 256 := by
  simp [SourceLine.wellFormed]

theorem plainMnemonics_disjoint_byteMnemonics : plainMnemonics.Disjoint byteMnemonics := by
  simp [plainMnemonics, byteMnemonics]

theorem assembleLine_of_not_wellFormed {l : SourceLine} (h : ¬ l.wellFormed = true) : assembleLine l = none := if_neg h

theorem assembleLine_plain {m : String} (h : m ∈ plainMnemonics) :
    assembleLine { mnemonic := m, operand := none } = plainCommand m := if_pos (wellFormed_plain_iff.mpr h)

theorem assembleLine_operand {m : String} {n : Nat} (h : m ∈ byteMnemonics) (hn : n < 256) :
    assembleLine { mnemonic := m, operand := some n } = byteCommand m (BitVec.ofNat 8 n) :=
  if_pos (wellFormed_operand_iff.mpr ⟨h, hn⟩)

end Sys2Proof.Machine
end

section
/-! PROOFS. The statements about the encoding and the assembler notation (spec/30_encoding.md). -/

namespace Sys2Proof.Machine

/-- Settles O1: the opcode map inverts the word patterns, and each pattern passes the format checks. -/
theorem decodeInvertsEncode : Obligations.DecodeInvertsEncode :=
  fun _ i => ⟨eq_encode_of_decode, fun h => h ▸ decode_encode i⟩

/-- Settles O4: a reserved opcode and a second NOP word are both malformed. -/
theorem reservedOpcodesAndNopWord : Obligations.ReservedOpcodesAndNopWord := by
  refine ⟨fun s hopc hp => ?_, fun s hopc hp => ?_, fun s hopc hw hp => ?_, fun w hd => eq_encode_of_decode hd⟩
  · exact (engineStep_of_malformed (.inl hopc)).trans (execIllegal_of_ne_error hp)
  · exact (engineStep_of_malformed (.inl hopc)).trans (execIllegal_of_error hp)
  · exact (engineStep_of_malformed (malformed_of_nop_opcode hopc hw)).trans (execIllegal_of_ne_error hp)

/-- Settles O6: the shared dispatch, CLEAR and the illegal word each answer with BUSY = 0, and no turn stops. -/
theorem everyWordCompletes : Obligations.EveryWordCompletes := ⟨engineStep_next, step_next⟩

/-- Settles O2: each word is the encoder's word of its command. -/
theorem patternWordsDecode : Obligations.PatternWordsDecode :=
  ⟨decode_encode .nop, decode_encode .clear, decode_encode (.count 0x61), decode_encode .build, decode_encode .assign,
    decode_encode .emitHdr, decode_encode .emitTree, decode_encode .emitSep, decode_encode (.encode 0xFF), decode_encode .flush,
    decode_encode .abort⟩

/-- Settles O59: a line assembles exactly when it is well formed, and then to its mnemonic's command. -/
theorem assemblerChecksOperands : Obligations.AssemblerChecksOperands := by
  refine ⟨fun n hn => ⟨?_, ?_⟩, fun m n hn => ?_, fun m n hm => ?_, fun m hm => ?_, fun m hm => ?_, ?_⟩
  · rw [assembleLine_operand (by simp [byteMnemonics]) (by omega)]
    rfl
  · rw [assembleLine_operand (by simp [byteMnemonics]) (by omega)]
    rfl
  · exact assembleLine_of_not_wellFormed fun h => absurd (wellFormed_operand_iff.mp h).2 (by omega)
  · exact assembleLine_of_not_wellFormed fun h => plainMnemonics_disjoint_byteMnemonics hm (wellFormed_operand_iff.mp h).1
  · exact assembleLine_of_not_wellFormed fun h => plainMnemonics_disjoint_byteMnemonics (wellFormed_plain_iff.mp h) hm
  · exact assembleLine_of_not_wellFormed fun h => hm (wellFormed_plain_iff.mp h)
  · refine ⟨?_, ?_, ?_, ?_, ?_, ?_, ?_, ?_, ?_⟩ <;> rw [assembleLine_plain (by simp [plainMnemonics])] <;> rfl

/-- Settles O60: the table's rows, with COMPRESS's list reassociated. -/
theorem macrosExpand : Obligations.MacrosExpand := by
  refine ⟨fun s => ⟨rfl, rfl⟩, rfl, fun s => ?_⟩
  simp only [expand, List.append_assoc, List.cons_append, List.nil_append]

end Sys2Proof.Machine
end

section
/-! PROOFS. What a COUNT command and a list of COUNT commands do (spec/40_frequency.md). -/

namespace Sys2Proof.Machine

/-! ### One COUNT command -/

section
variable {s : State}

theorem exec_count_of_room (b : Byte) (hp : s.phase = .count) (hmax : s.total ≠ BitVec.allOnes 64) :
    exec (.count b) s = .next (finish (countByte b s)) :=
  runCommand_of_completes (by simp [hp]) (commandError_eq_none.mpr ⟨by simp [legalIn, hp], by simpa [ownError] using hmax⟩)

theorem exec_count_of_full (b : Byte) (hp : s.phase = .count) (hmax : s.total = BitVec.allOnes 64) :
    exec (.count b) s = .next (raise .countOverflow s) :=
  runCommand_of_raises (by simp [hp]) (by simp [commandError, legalIn, hp, ownError, hmax])

theorem exec_count_of_wrongPhase (b : Byte) (hp : s.phase ≠ .count) (he : s.phase ≠ .error) :
    exec (.count b) s = .next (raise .sequenceError s) :=
  runCommand_of_raises he (by simp [commandError, legalIn, hp])

end

/-- Settles O18: the effect of COUNT, its two errors as the dispatch raises them, and the malformed word. -/
theorem countAddsOneOccurrence : Obligations.CountAddsOneOccurrence := by
  refine ⟨fun b s hp hmax => ⟨_, exec_count_of_room b hp hmax, ?_, fun c hc => ?_, rfl⟩, fun b s => exec_count_of_full b,
    fun b s => exec_count_of_wrongPhase b, fun s hp _ hrsv => ?_, fun b => ?_⟩
  · simp
  · simp [tableGet_tableSet_of_ne _ _ hc]
  · exact (engineStep_of_malformed (.inr (.inl hrsv))).trans (execIllegal_of_ne_error hp)
  · exact (encode_count_eq b).trans (BitVec.append_assoc (x₁ := 0x2#4) (x₂ := 0#20)).symm

/-! ### A list of COUNT commands -/

/-- The state after the COUNT commands of a list of bytes, when none of them raises an error. -/
def countAll (bs : List Byte) (s : State) : State := bs.foldl (fun s b => finish (countByte b s)) s

@[simp] theorem countAll_nil (s : State) : countAll [] s = s := rfl
@[simp] theorem countAll_cons (b : Byte) (bs : List Byte) (s : State) :
    countAll (b :: bs) s = countAll bs (finish (countByte b s)) := rfl

/-- Two occurrences may be counted in either order. -/
theorem countByte_comm (b c : Byte) (s : State) : countByte c (countByte b s) = countByte b (countByte c s) := by
  have hfreq : (countByte c (countByte b s)).freq = (countByte b (countByte c s)).freq := by
    refine table_ext fun d => ?_
    by_cases hbc : b = c
    · rw [hbc]
    · simp only [countByte_freq, tableGet_tableSet]
      grind
  exact congrArg (fun f => { s with freq := f, total := s.total + 1 + 1 }) hfreq

/-- Counting looks at no order: the two lists hold the same bytes, and each pair of neighbours may be exchanged. -/
theorem countAll_perm {bs cs : List Byte} (h : bs.Perm cs) (s : State) : countAll bs s = countAll cs s :=
  h.foldl_eq' (fun b _ c _ s => congrArg finish (countByte_comm b c s)) s

theorem countAll_freq (bs : List Byte) (s : State) (b : Byte) :
    tableGet (countAll bs s).freq b = tableGet s.freq b + BitVec.ofNat 64 (bs.count b) := by
  induction bs generalizing s with
  | nil => simp
  | cons c bs ih =>
    rw [countAll_cons, ih, finish_freq, countByte_freq, tableGet_tableSet]
    by_cases hb : b = c
    · subst hb
      rw [if_pos rfl, List.count_cons_self, Nat.add_comm, BitVec.ofNat_add, BitVec.add_assoc]
      rfl
    · rw [if_neg hb, List.count_cons_of_ne (Ne.symm hb)]

/-- With room in TOTAL for every byte of the list, no COUNT raises an error (R100). -/
theorem runInstrs_count {bs : List Byte} {s : State} (hp : s.phase = .count) (hroom : s.total.toNat + bs.length < 2 ^ 64) :
    runInstrs (bs.map .count) s = .next (countAll bs s) := by
  induction bs generalizing s with
  | nil => rfl
  | cons b bs ih =>
    rw [List.length_cons] at hroom
    have hmax : s.total ≠ BitVec.allOnes 64 := by
      intro h
      rw [h, BitVec.toNat_allOnes] at hroom
      omega
    have htotal : (finish (countByte b s)).total.toNat = s.total.toNat + 1 := toNat_add_one (by omega)
    rw [List.map_cons, runInstrs, exec_count_of_room b hp hmax]
    exact ih hp (by omega)

/-- Settles O19: both lists run to the state of their bytes counted, and that state does not depend on the order. -/
theorem countOrderIsIrrelevant : Obligations.CountOrderIsIrrelevant := by
  intro bs cs s hperm hp hroom
  refine ⟨countAll bs s, runInstrs_count hp hroom, ?_, countAll_freq bs s⟩
  rw [countAll_perm hperm]
  exact runInstrs_count hp (hperm.length_eq ▸ hroom)

end Sys2Proof.Machine
end

section
/-! PROOFS. The rank order and its key, and the candidates of a build (spec/41_tree_builder.md R110 to R115). -/

namespace Sys2Proof.Machine

/-! ### The rank key -/

/-- The rank key's value by its three fields (R111). -/
theorem rankKey_toNat (n : Tree) : (rankKey n).toNat = n.freq.toNat * 512 + (!n.isLeaf).toNat * 256 + n.tieByte.toNat := by
  have htie := n.tieByte.isLt
  have hkind : (BitVec.ofBool (!n.isLeaf)).toNat = (!n.isLeaf).toNat := BitVec.toNat_ofBool _
  rw [rankKey, BitVec.toNat_append, BitVec.toNat_append, hkind, ← Nat.shiftLeft_add_eq_or_of_lt htie,
    ← Nat.shiftLeft_add_eq_or_of_lt (by omega), Nat.shiftLeft_eq, Nat.shiftLeft_eq]
  omega

theorem ranksLower_of_freq_ne {x y : Tree} (h : x.freq ≠ y.freq) : ranksLower x y = x.freq.ult y.freq := by
  simp [ranksLower, h]

theorem rankKey_lt_of_freq_lt {x y : Tree} (h : x.freq.toNat < y.freq.toNat) : (rankKey x).toNat < (rankKey y).toNat := by
  have hx := x.tieByte.isLt
  have hkind := Bool.toNat_le (!x.isLeaf)
  rw [rankKey_toNat, rankKey_toNat]
  omega

/-- Between equal frequencies the kinds decide, and between equal kinds the low bytes (R110, levels 2 to 4). -/
theorem ranksLower_iff_of_freq_eq {x y : Tree} (h : x.freq = y.freq) :
    ranksLower x y = true ↔ (rankKey x).toNat < (rankKey y).toNat := by
  rw [rankKey_toNat, rankKey_toNat, h]
  have hx := x.tieByte.isLt
  have hy := y.tieByte.isLt
  cases x with
  | leaf b f =>
    cases y with
    | leaf c g => simp_all [ranksLower, Tree.isLeaf, Tree.tieByte, BitVec.ult_iff_lt, BitVec.lt_def]
    | internal g a l r => simp_all [ranksLower, Tree.isLeaf, Tree.tieByte]; omega
  | internal f a l r =>
    cases y with
    | leaf c g => simp_all [ranksLower, Tree.isLeaf, Tree.tieByte]; omega
    | internal g a' l' r' => simp_all [ranksLower, Tree.isLeaf, Tree.tieByte, BitVec.ult_iff_lt, BitVec.lt_def]

/-- Settles O40: the frequencies decide first, as the key's high field. -/
theorem rankOrderIsKeyOrder : Obligations.RankOrderIsKeyOrder := by
  intro x y
  by_cases h : x.freq = y.freq
  · exact ranksLower_iff_of_freq_eq h
  · rw [ranksLower_of_freq_ne h, BitVec.ult_iff_lt, BitVec.lt_def]
    refine ⟨rankKey_lt_of_freq_lt, fun hkey => ?_⟩
    by_contra hle
    have hne : x.freq.toNat ≠ y.freq.toNat := fun e => h (BitVec.eq_of_toNat_eq e)
    exact absurd (rankKey_lt_of_freq_lt (x := y) (y := x) (by omega)) (by omega)

/-- Of two nodes with different keys exactly one ranks lower (R112). -/
theorem ranksLower_total {x y : Tree} (h : rankKey x ≠ rankKey y) : ranksLower x y = true ∧ ranksLower y x = false ∨
    ranksLower y x = true ∧ ranksLower x y = false := by
  have hne : (rankKey x).toNat ≠ (rankKey y).toNat := fun e => h (BitVec.eq_of_toNat_eq e)
  rw [← Bool.not_eq_true, ← Bool.not_eq_true, rankOrderIsKeyOrder, rankOrderIsKeyOrder]
  omega

/-! ### The least candidate -/

/-- No candidate's key is below that of the one removed (R113). -/
theorem takeLeast_rankKey_le {c rest : List Tree} {m : Tree} (h : takeLeast c = some (m, rest)) :
    ∀ x ∈ rest, (rankKey m).toNat ≤ (rankKey x).toNat := by
  induction c generalizing m rest with
  | nil => cases h
  | cons y ys ih =>
    rw [takeLeast] at h
    split at h
    · cases h
      simp
    · next m' rest' hys =>
      split at h
      · next hlow =>
        cases h
        have hym := (rankOrderIsKeyOrder _ _).mp hlow
        intro x hx
        rcases List.mem_cons.mp ((takeLeast_perm hys).mem_iff.mp hx) with rfl | hx
        · exact hym.le
        · exact hym.le.trans (ih hys x hx)
      · next hlow =>
        cases h
        have hmy : ¬ (rankKey y).toNat < (rankKey m).toNat := fun hlt => hlow ((rankOrderIsKeyOrder _ _).mpr hlt)
        intro x hx
        rcases List.mem_cons.mp hx with rfl | hx
        · omega
        · exact ih hys x hx

theorem takeLeast_freq_le {c rest : List Tree} {m : Tree} (h : takeLeast c = some (m, rest)) :
    ∀ x ∈ rest, m.freq.toNat ≤ x.freq.toNat := by
  intro x hx
  by_contra hlt
  exact absurd (rankKey_lt_of_freq_lt (Nat.lt_of_not_le hlt)) (Nat.not_lt.mpr (takeLeast_rankKey_le h x hx))

/-! ### The candidates never tie -/

/-- The low nine bits of the rank key: the kind and the byte value or age (R111). -/
def tieKey (t : Tree) : Bool × BitVec 8 := (t.isLeaf, t.tieByte)

@[simp] theorem tieKey_leaf (b : Byte) (f : Word64) : tieKey (.leaf b f) = (true, b) := rfl
@[simp] theorem tieKey_merge (lf : Bool) (n1 n2 : Tree) (age : BitVec 8) : tieKey (merge lf n1 n2 age) = (false, age) := by
  simp [tieKey]

theorem boolToNat_injective : Function.Injective Bool.toNat := by decide

theorem tieKey_eq_of_rankKey_eq {x y : Tree} (h : rankKey x = rankKey y) : tieKey x = tieKey y := by
  have hx := x.tieByte.isLt
  have hy := y.tieByte.isLt
  have hkey := congrArg BitVec.toNat h
  rw [rankKey_toNat, rankKey_toNat] at hkey
  have hkx := Bool.toNat_le (!x.isLeaf)
  have hky := Bool.toNat_le (!y.isLeaf)
  have htie : x.tieByte = y.tieByte := BitVec.eq_of_toNat_eq (by omega)
  have hkind : (!x.isLeaf).toNat = (!y.isLeaf).toNat := by omega
  exact Prod.ext (by simpa [tieKey] using boolToNat_injective hkind) htie

/-- Why no two candidates tie (R112): byte values are distinct, ages given out are distinct and below the age counter, and the counter has
room for the merges to come. -/
structure CandidatesApart (c : List Tree) (age : BitVec 8) : Prop where
  apart : (c.map tieKey).Nodup
  given : ∀ t ∈ c, t.isLeaf = false → t.tieByte.toNat < age.toNat
  room : age.toNat + c.length ≤ 256

theorem CandidatesApart.rankKey_nodup {c : List Tree} {age : BitVec 8} (h : CandidatesApart c age) : (c.map rankKey).Nodup := by
  have hpair := List.pairwise_map.mp h.apart
  exact List.pairwise_map.mpr (hpair.imp fun hne heq => hne (tieKey_eq_of_rankKey_eq heq))

theorem occurring_bytes_nodup (freq : ByteTable Word64) : ((occurring freq).map (·.1)).Nodup := by
  simpa [occurring, Function.comp_def] using allBytes_nodup.filter _

theorem CandidatesApart.candidates (freq : ByteTable Word64) : CandidatesApart (candidates freq) 0 where
  apart := by
    have hinj : Function.Injective (Prod.mk true : Byte → Bool × Byte) := fun _ _ e => (Prod.mk.inj e).2
    simpa [candidates_eq, Function.comp_def] using (occurring_bytes_nodup freq).map hinj
  given t ht hleaf := by
    rw [candidates_eq] at ht
    obtain ⟨p, -, rfl⟩ := List.mem_map.mp ht
    cases hleaf
  room := by simpa [length_candidates] using leafCount_le freq

theorem CandidatesApart.perm {c c' : List Tree} {age : BitVec 8} (h : CandidatesApart c age) (hc : c.Perm c') :
    CandidatesApart c' age where
  apart := (hc.map tieKey).nodup_iff.mp h.apart
  given t ht := h.given t (hc.mem_iff.mpr ht)
  room := hc.length_eq ▸ h.room

/-- One merge keeps the candidates apart: its age is above every age given out before. -/
theorem CandidatesApart.merge {n1 n2 : Tree} {c : List Tree} {age : BitVec 8} (lf : Bool) (h : CandidatesApart (n1 :: n2 :: c) age) :
    CandidatesApart (merge lf n1 n2 age :: c) (age + 1) := by
  have hroom := h.room
  simp only [List.length_cons] at hroom
  have hage : (age + 1).toNat = age.toNat + 1 := BitVec.toNat_add_of_lt (y := 1#8) (by simp; omega)
  exact {
    apart := by
      have hapart := h.apart
      simp only [List.map_cons, List.nodup_cons] at hapart
      obtain ⟨-, -, hc⟩ := hapart
      rw [List.map_cons, tieKey_merge]
      refine List.nodup_cons.mpr ⟨fun hmem => ?_, hc⟩
      obtain ⟨t, ht, heq⟩ := List.mem_map.mp hmem
      obtain ⟨hleaf, htie⟩ := Prod.mk.inj heq
      have := h.given t (by simp [ht]) hleaf
      rw [htie] at this
      omega
    given := fun t ht hleaf => by
      rw [hage]
      rcases List.mem_cons.mp ht with rfl | ht
      · simp
      · exact (h.given t (by simp [ht]) hleaf).trans (Nat.lt_succ_self _)
    room := by
      rw [hage, List.length_cons]
      omega }

/-- Settles O41: the loop keeps the candidates apart, and of two keys that differ one ranks lower. -/
theorem candidatesNeverTie : Obligations.CandidatesNeverTie := by
  refine ⟨fun lf freq k => ?_, fun c rest m hnodup h => ⟨takeLeast_perm h, fun x hx => ?_⟩⟩
  · exact (mergeLoop_induction (P := CandidatesApart)
      (fun _ _ _ _ _ _ hc h1 h2 => (hc.perm (takeTwo_perm h1 h2)).merge lf) k 0 _ (.candidates freq)).rankKey_nodup
  · have hkeys := ((takeLeast_perm h).map rankKey).nodup_iff.mp hnodup
    have hne : rankKey m ≠ rankKey x := fun e => (List.nodup_cons.mp hkeys).1 (e ▸ List.mem_map_of_mem hx)
    have hle := takeLeast_rankKey_le h x hx
    rcases ranksLower_total hne with hlow | ⟨hlow, -⟩
    · exact hlow
    · exact absurd ((rankOrderIsKeyOrder _ _).mp hlow) (Nat.not_lt.mpr hle)

end Sys2Proof.Machine
end

section
/-! PROOFS. The size and the depth of a tree, and the command BUILD (spec/41_tree_builder.md R113 to R118). -/

namespace Sys2Proof.Machine

/-! ### Size and depth -/

/-- A tree with n leaves has 2n - 1 nodes (R118). -/
theorem length_preorder (t : Tree) : t.preorder.length + 1 = 2 * t.leafPairs.length := by
  induction t with
  | leaf b f => rfl
  | internal f a l r ihl ihr =>
    simp only [Tree.preorder, Tree.leafPairs, List.length_cons, List.length_append]
    omega

theorem length_leafPairs_pos (t : Tree) : 0 < t.leafPairs.length := by
  have := length_preorder t
  omega

/-- No leaf is deeper than the other leaves are many (R118). -/
theorem length_path_lt {t : Tree} : ∀ p ∈ t.paths, p.2.length < t.leafPairs.length := by
  induction t with
  | leaf b f => simp [Tree.paths, Tree.leafPairs]
  | internal f a l r ihl ihr =>
    have hl := length_leafPairs_pos l
    have hr := length_leafPairs_pos r
    intro p hp
    rw [Tree.leafPairs, List.length_append]
    rcases List.mem_append.mp hp with hp | hp
    · obtain ⟨q, hq, rfl⟩ := List.mem_map.mp hp
      have := ihl q hq
      simp only [List.length_cons]
      omega
    · obtain ⟨q, hq, rfl⟩ := List.mem_map.mp hp
      have := ihr q hq
      simp only [List.length_cons]
      omega

/-- The facts of a built tree are those of the build's invariant for it alone (R29, R118). -/
theorem BuildInvariant.treeFor {freq : ByteTable Word64} {t : Tree} {age : BitVec 8} (h : BuildInvariant freq [t] age) :
    TreeFor freq t := by
  have hleaves : t.leafPairs.Perm (occurring freq) := by simpa using h.leaves
  have hcount : t.leafPairs.length = leafCount freq := hleaves.length_eq.trans (length_occurring freq)
  exact {
    sums := h.sums t (by simp)
    leaves := hleaves
    root := by simpa using h.total
    ages := by
      obtain ⟨k, hk, -, hperm⟩ := h.ages
      rw [← hk]
      simpa using hperm
    nodes := by
      have := length_preorder t
      omega
    depth := fun p hp => by
      have := length_path_lt p hp
      omega }

/-- Settles O43: a table with an occurring byte builds one tree, and the build's invariant holds of it. -/
theorem builtTreeMeetsItsInvariants : Obligations.BuiltTreeMeetsItsInvariants := by
  intro lf freq hpos hlt
  have hcount := leafCount_pos hpos.ne'
  obtain ⟨t, ht⟩ := buildTree_of_pos lf hcount
  exact ⟨t, ht, (buildTree_invariant hlt ht).treeFor, hcount, leafCount_le freq⟩

/-! ### The command -/

/-- Settles O42, by the definition of `merge`. -/
theorem mergePutsFirstRemovedLeft : Obligations.MergePutsFirstRemovedLeft := ⟨fun _ _ _ => ⟨rfl, rfl⟩, rfl⟩

section
variable {s : State}

theorem exec_build_of_total_ne_zero (hp : s.phase = .count) (ht : s.total ≠ 0) : exec .build s = .next (finish (buildEffect s)) :=
  runCommand_of_completes (by simp [hp]) (commandError_eq_none.mpr ⟨by simp [legalIn, hp], if_neg ht⟩)

theorem exec_build_of_total_eq_zero (hp : s.phase = .count) (ht : s.total = 0) : exec .build s = .next (raise .emptyInput s) :=
  runCommand_of_raises (by simp [hp]) (by simp [commandError, legalIn, hp, ownError, ht])

theorem exec_build_of_wrongPhase (hp : s.phase ≠ .count) (he : s.phase ≠ .error) : exec .build s = .next (raise .sequenceError s) :=
  runCommand_of_raises he (by simp [commandError, legalIn, hp])

end

/-- A word with the opcode of a command without an operand that is not that command's word has a wrong field (R82, R83). -/
theorem malformed_of_plain_opcode {w : CmdWord} {opc : BitVec 4} (hopc : w.extractLsb' 28 4 = opc) (hcount : opc ≠ 0x2)
    (hencode : opc ≠ 0x8) (hw : w ≠ opc ++ 0#28) : Malformed w := by
  subst hopc
  by_contra h
  simp only [Malformed, not_or, not_and, not_not] at h
  obtain ⟨-, hrsv, harg⟩ := h
  apply hw
  calc w = w.extractLsb' 28 4 ++ (w.extractLsb' 8 20 ++ w.extractLsb' 0 8) := (fieldsOf_append w).symm
    _ = w.extractLsb' 28 4 ++ 0#28 := by rw [hrsv, harg hcount hencode]; rfl

/-- The build, started from the occurring bytes' leaves (R102, R113, R115). -/
theorem buildTree_eq (lf : Bool) (freq : ByteTable Word64) : buildTree lf freq =
    ((mergeLoop lf (leafCount freq) 0 ((occurring freq).map fun p => .leaf p.1 p.2)).1.head?,
      (mergeLoop lf (leafCount freq) 0 ((occurring freq).map fun p => .leaf p.1 p.2)).2) := by
  rw [← candidates_eq, ← length_candidates]
  rfl

theorem mergeLoop_round {lf : Bool} {k : Nat} {age : BitVec 8} {c c1 c2 : List Tree} {n1 n2 : Tree}
    (h1 : takeLeast c = some (n1, c1)) (h2 : takeLeast c1 = some (n2, c2)) :
    mergeLoop lf (k + 1) age c = mergeLoop lf k (age + 1) (merge lf n1 n2 age :: c2) := by
  simp only [mergeLoop, h1, h2]

/-- Settles O20: the effect of BUILD, the merge loop's start, round and end, the errors as the dispatch raises them, and the malformed
word. -/
theorem buildStoresTheMergedTree : Obligations.BuildStoresTheMergedTree :=
  ⟨fun _ => exec_build_of_total_ne_zero, buildTree_eq, fun _ _ _ _ _ _ _ _ => mergeLoop_round,
    fun _ k age _ hc => mergeLoop_of_length_le_one hc k age, fun _ => exec_build_of_total_eq_zero, fun _ => exec_build_of_wrongPhase,
    fun _ hp hopc hw => (engineStep_of_malformed (malformed_of_plain_opcode hopc (by decide) (by decide) hw)).trans
      (execIllegal_of_ne_error hp),
    rfl⟩

/-! ### No byte, and one byte -/

theorem freqSum_eq_zero_iff (freq : ByteTable Word64) : freqSum freq = 0 ↔ ∀ b, tableGet freq b = 0 := by
  simp [freqSum, List.sum_eq_zero_iff, BitVec.toNat_eq]

/-- Settles O14: TOTAL is the table's sum, which is 0 exactly when each entry is. -/
theorem buildOnEmptyInput : Obligations.BuildOnEmptyInput := by
  refine fun s h hp => ⟨?_, exec_build_of_total_eq_zero hp⟩
  rw [← freqSum_eq_zero_iff, ← h.total, BitVec.toNat_eq]
  rfl

theorem occurring_of_single {freq : ByteTable Word64} {b : Byte} (hb : tableGet freq b ≠ 0) (hc : ∀ c, c ≠ b → tableGet freq c = 0) :
    occurring freq = [(b, tableGet freq b)] := by
  have hfilter : (allBytes.filter fun c => tableGet freq c != 0) = allBytes.filter (· == b) := by
    refine List.filter_congr fun c _ => ?_
    by_cases h : c = b
    · simpa [h] using hb
    · simp [h, hc c h]
  rw [occurring, hfilter, List.filter_beq, List.count_eq_one_of_mem allBytes_nodup (mem_allBytes b)]
  rfl

/-- Settles O45: the loop starts with one candidate and so ends there. -/
theorem singleByteBuildIsDegenerate : Obligations.SingleByteBuildIsDegenerate := by
  intro s b hp ht hb hc
  have hocc := occurring_of_single hb hc
  have hcount : leafCount s.freq = 1 := by rw [← length_occurring, hocc]; rfl
  have hbuild : buildTree s.cfg.leftFirst s.freq = (some (.leaf b (tableGet s.freq b)), 0) := by
    rw [buildTree_eq, hocc, mergeLoop_of_length_le_one (by simp)]
    rfl
  have htree : (finish (buildEffect s)).tree = some (.leaf b (tableGet s.freq b)) := by simp [hbuild]
  refine ⟨_, exec_build_of_total_ne_zero hp ht, htree, ?_, ?_, ?_, ?_⟩
  · simp [hcount]
  · simp [hcount]
  · simp [hbuild]
  · rw [statusReg_getLsbD]
    exact (degen_iff _).mpr ⟨_, _, htree⟩

end Sys2Proof.Machine
end

section
/-! PROOFS. The built tree costs least (spec/41_tree_builder.md R120). A placement gives each candidate of the merge loop a depth, as a tree
over the candidates would. Every tree over the table's leaves is a placement of the first candidates; a round of the loop turns a placement
of its candidates into one of the next round's that costs no more; and the last candidate is placed at depth 0. -/

namespace Sys2Proof.Machine

/-! ### Depths -/

/-- Kraft's sum of a collection of leaf depths. It is 1 for the leaves of a tree whose root stands at depth 0 (`placement_kraft`). -/
def kraftSum (ds : Multiset ℕ) : ℚ := (ds.map fun d => (1 / 2 : ℚ) ^ d).sum

@[simp] theorem kraftSum_cons (d : ℕ) (ds : Multiset ℕ) : kraftSum (d ::ₘ ds) = (1 / 2) ^ d + kraftSum ds := by
  simp [kraftSum]

@[simp] theorem kraftSum_add (ds es : Multiset ℕ) : kraftSum (ds + es) = kraftSum ds + kraftSum es := by
  simp [kraftSum]

@[simp] theorem kraftSum_singleton (d : ℕ) : kraftSum {d} = (1 / 2) ^ d := by
  simp [kraftSum]

/-- Two leaves of depth d + 1 fill the place of one of depth d. -/
theorem half_pow_succ_add_self (d : ℕ) : (1 / 2 : ℚ) ^ (d + 1) + (1 / 2) ^ (d + 1) = (1 / 2) ^ d := by
  ring

theorem half_pow_mul_two_pow (d : ℕ) : (1 / 2 : ℚ) ^ d * 2 ^ d = 1 := by
  rw [← mul_pow]
  norm_num

theorem kraftSum_nonneg (ds : Multiset ℕ) : 0 ≤ kraftSum ds := by
  refine Multiset.sum_nonneg fun x hx => ?_
  obtain ⟨d, -, rfl⟩ := Multiset.mem_map.mp hx
  positivity

/-- Depths up to D contribute whole multiples of 2^(-D). -/
theorem exists_kraftSum_eq_mul {D : ℕ} {ds : Multiset ℕ} (h : ∀ d ∈ ds, d ≤ D) : ∃ m : ℕ, kraftSum ds = m * (1 / 2) ^ D := by
  induction ds using Multiset.induction_on with
  | empty => exact ⟨0, by simp [kraftSum]⟩
  | cons d ds ih =>
    obtain ⟨m, hm⟩ := ih fun e he => h e (Multiset.mem_cons_of_mem he)
    obtain ⟨k, rfl⟩ := Nat.exists_eq_add_of_le (h d (Multiset.mem_cons_self d ds))
    refine ⟨2 ^ k + m, ?_⟩
    rw [kraftSum_cons, hm, pow_add]
    push_cast
    linear_combination -(1 / 2 : ℚ) ^ d * half_pow_mul_two_pow k

/-- In a filled tree the greatest depth occurs twice, unless it is the only depth: otherwise Kraft's sum would be an odd multiple of
2^(-D). -/
theorem mem_of_kraftSum_eq_one {D : ℕ} {ds : Multiset ℕ} (hne : ds ≠ 0) (hmax : ∀ d ∈ ds, d ≤ D) (h : kraftSum (D ::ₘ ds) = 1) :
    D ∈ ds := by
  by_contra hD
  have hlt : ∀ d ∈ ds, d < D := fun d hd => (hmax d hd).lt_of_ne fun e => hD (e ▸ hd)
  obtain ⟨d, hd⟩ := Multiset.exists_mem_of_ne_zero hne
  obtain ⟨E, rfl⟩ : ∃ E, D = E + 1 := Nat.exists_eq_succ_of_ne_zero (Nat.ne_zero_of_lt (hlt d hd))
  obtain ⟨m, hm⟩ := exists_kraftSum_eq_mul (D := E) fun e he => Nat.le_of_lt_succ (hlt e he)
  rw [kraftSum_cons, hm] at h
  have hodd : ((1 + 2 * m : ℕ) : ℚ) = (2 ^ (E + 1) : ℕ) := by
    push_cast
    rw [pow_succ] at h ⊢
    linear_combination 2 * 2 ^ E * h - (1 + 2 * m) * half_pow_mul_two_pow E
  have hnat : 1 + 2 * m = 2 * 2 ^ E := by rw [← pow_succ']; exact_mod_cast hodd
  omega

/-! ### Placements -/

/-- Candidates with a depth each. -/
abbrev Placement := Multiset (ℕ × Tree)

/-- The code bits of a placement: each candidate's leaves at their depths below the candidate's (R120). -/
def Placement.cost (P : Placement) : ℕ := (P.map fun p => p.2.costFrom p.1).sum

@[simp] theorem Placement.cost_cons (d : ℕ) (t : Tree) (P : Placement) : Placement.cost ((d, t) ::ₘ P) = t.costFrom d + P.cost := by
  simp [Placement.cost]

/-- A placement of the candidates of c in a filled tree that costs at most K. -/
structure Placement.Fills (P : Placement) (c : List Tree) (K : ℕ) : Prop where
  trees : P.map (·.2) = (c : Multiset Tree)
  kraft : kraftSum (P.map (·.1)) = 1
  cost : P.cost ≤ K

/-- The depth of an exact tree's root weighs its frequency. -/
theorem costFrom_eq {t : Tree} (h : t.SumsExact) (d : ℕ) : t.costFrom d = d * t.freq.toNat + t.costFrom 0 := by
  induction t generalizing d with
  | leaf b f => simp [Tree.costFrom, Tree.freq]
  | internal f a l r ihl ihr =>
    obtain ⟨hf, hl, hr⟩ := h
    have e : (Tree.internal f a l r).freq.toNat = l.freq.toNat + r.freq.toNat := hf
    simp only [Tree.costFrom]
    rw [ihl hl (d + 1), ihr hr (d + 1), ihl hl (0 + 1), ihr hr (0 + 1), e]
    ring

theorem costFrom_merge (lf : Bool) (n1 n2 : Tree) (age : BitVec 8) (d : ℕ) :
    (merge lf n1 n2 age).costFrom d = n1.costFrom (d + 1) + n2.costFrom (d + 1) := by
  rcases merge_cases lf n1 n2 age with e | e <;> rw [e]
  · rfl
  · exact Nat.add_comm _ _

/-- A lighter tree belongs deeper: exchanging its depth with a heavier one's costs nothing. -/
theorem costFrom_exchange {x y : Tree} (hx : x.SumsExact) (hy : y.SumsExact) (hfreq : x.freq.toNat ≤ y.freq.toNat) {d D : ℕ}
    (hd : d ≤ D) : x.costFrom D + y.costFrom d ≤ x.costFrom d + y.costFrom D := by
  rw [costFrom_eq hx d, costFrom_eq hx D, costFrom_eq hy d, costFrom_eq hy D]
  have := Nat.mul_le_mul_left (D - d) hfreq
  obtain ⟨k, rfl⟩ := Nat.exists_eq_add_of_le hd
  simp only [Nat.add_sub_cancel_left] at this
  linarith

theorem exists_placed {P : Placement} {t : Tree} {C : Multiset Tree} (h : P.map (·.2) = t ::ₘ C) :
    ∃ d R, P = (d, t) ::ₘ R ∧ R.map (·.2) = C := by
  obtain ⟨⟨d, u⟩, hmem, rfl, hrest⟩ := (Multiset.map_eq_cons _ _ _ _).mpr h
  exact ⟨d, P.erase (d, u), (Multiset.cons_erase hmem).symm, hrest⟩

theorem depths_ne_zero {P : Placement} {t : Tree} {C : Multiset Tree} (h : P.map (·.2) = t ::ₘ C) : P.map (·.1) ≠ 0 := by
  obtain ⟨d, R, rfl, -⟩ := exists_placed h
  simp

/-- The lightest candidate may be put at the greatest depth, in exchange with whatever stands there. -/
theorem exists_sink {P : Placement} {n : Tree} {C : Multiset Tree} {D : ℕ} (hP : P.map (·.2) = n ::ₘ C)
    (hexact : ∀ t ∈ n ::ₘ C, t.SumsExact) (hleast : ∀ t ∈ C, n.freq.toNat ≤ t.freq.toNat) (hD : D ∈ P.map (·.1))
    (hmax : ∀ d ∈ P.map (·.1), d ≤ D) :
    ∃ R : Placement, R.map (·.2) = C ∧ P.map (·.1) = D ::ₘ R.map (·.1) ∧ n.costFrom D + R.cost ≤ P.cost := by
  obtain ⟨d, R, rfl, rfl⟩ := exists_placed hP
  rw [Multiset.map_cons] at hD hmax
  rcases Multiset.mem_cons.mp hD with rfl | hD
  · exact ⟨R, rfl, by simp, by simp⟩
  · obtain ⟨⟨D, u⟩, hu, rfl⟩ := Multiset.mem_map.mp hD
    obtain ⟨R, rfl⟩ := Multiset.exists_cons_of_mem hu
    have hswap : n.costFrom D + u.costFrom d ≤ n.costFrom d + u.costFrom D :=
      costFrom_exchange (hexact n (by simp)) (hexact u (by simp)) (hleast u (by simp)) (hmax d (by simp))
    refine ⟨(d, u) ::ₘ R, by simp, by simpa using Multiset.cons_swap _ _ _, ?_⟩
    simp only [Placement.cost_cons]
    omega

/-- The two lightest candidates may be made siblings, at the greatest depth. -/
theorem exists_siblings {P : Placement} {n1 n2 : Tree} {c : List Tree} {K : ℕ} (hP : P.Fills (n1 :: n2 :: c) K)
    (hexact : ∀ t ∈ n1 :: n2 :: c, t.SumsExact) (h1 : ∀ t ∈ n2 :: c, n1.freq.toNat ≤ t.freq.toNat)
    (h2 : ∀ t ∈ c, n2.freq.toNat ≤ t.freq.toNat) :
    ∃ D, ∃ R : Placement, R.map (·.2) = c ∧ kraftSum (D ::ₘ D ::ₘ R.map (·.1)) = 1 ∧
      n1.costFrom D + (n2.costFrom D + R.cost) ≤ K := by
  obtain ⟨htrees, hkraft, hcost⟩ := hP
  obtain ⟨D, hD, hmax⟩ := Multiset.exists_max_image id (depths_ne_zero (t := n1) (C := (n2 :: c : List Tree)) htrees)
  obtain ⟨R1, htrees1, hdepths1, hcost1⟩ := exists_sink (n := n1) (C := (n2 :: c : List Tree)) htrees hexact h1 hD hmax
  rw [hdepths1] at hkraft hmax
  have hmax1 : ∀ d ∈ R1.map (·.1), d ≤ D := fun d hd => hmax d (Multiset.mem_cons_of_mem hd)
  have hD1 := mem_of_kraftSum_eq_one (depths_ne_zero (t := n2) (C := c) htrees1) hmax1 hkraft
  obtain ⟨R2, htrees2, hdepths2, hcost2⟩ := exists_sink (n := n2) (C := c) htrees1
    (fun t ht => hexact t (List.mem_cons_of_mem _ ht)) h2 hD1 hmax1
  exact ⟨D, R2, htrees2, hdepths2 ▸ hkraft, by omega⟩

/-- A round of the loop: the merge of the two lightest candidates takes the place above them. -/
theorem Placement.Fills.merge {P : Placement} {n1 n2 : Tree} {c : List Tree} {K : ℕ} (lf : Bool) (age : BitVec 8)
    (hP : P.Fills (n1 :: n2 :: c) K) (hexact : ∀ t ∈ n1 :: n2 :: c, t.SumsExact)
    (h1 : ∀ t ∈ n2 :: c, n1.freq.toNat ≤ t.freq.toNat) (h2 : ∀ t ∈ c, n2.freq.toNat ≤ t.freq.toNat) :
    ∃ P' : Placement, P'.Fills (Machine.merge lf n1 n2 age :: c) K := by
  obtain ⟨D, R, htrees, hkraft, hcost⟩ := exists_siblings hP hexact h1 h2
  rw [kraftSum_cons, kraftSum_cons, ← add_assoc] at hkraft
  cases D with
  | zero =>
    have := kraftSum_nonneg (R.map (·.1))
    norm_num at hkraft
    linarith
  | succ E =>
    rw [half_pow_succ_add_self] at hkraft
    refine ⟨(E, Machine.merge lf n1 n2 age) ::ₘ R, by simp [htrees], by simpa using hkraft, ?_⟩
    rw [cost_cons, costFrom_merge]
    omega

/-- A last candidate stands at the root, so its cost is the placement's. -/
theorem Placement.Fills.cost_le {P : Placement} {t : Tree} {K : ℕ} (h : P.Fills [t] K) : t.costFrom 0 ≤ K := by
  obtain ⟨htrees, hkraft, hcost⟩ := h
  obtain ⟨d, R, rfl, hR⟩ := exists_placed (C := 0) htrees
  obtain rfl := Multiset.map_eq_zero.mp hR
  have hd : d = 0 := by
    by_contra hne
    have := (pow_eq_one_iff_of_nonneg (by norm_num) hne).mp (by simpa using hkraft : (1 / 2 : ℚ) ^ d = 1)
    norm_num at this
  subst hd
  simpa [Placement.cost] using hcost

/-! ### Every tree is a placement of its leaves -/

/-- The leaves of a tree whose root stands at depth d, each at its depth. -/
def Tree.placement (d : ℕ) : Tree → Placement
  | .leaf b f => {(d, .leaf b f)}
  | .internal _ _ l r => Tree.placement (d + 1) l + Tree.placement (d + 1) r

theorem placement_trees (t : Tree) (d : ℕ) :
    (t.placement d).map (·.2) = (t.leafPairs.map fun p => Tree.leaf p.1 p.2 : List Tree) := by
  induction t generalizing d with
  | leaf b f => rfl
  | internal f a l r ihl ihr => simp [Tree.placement, Tree.leafPairs, ihl, ihr]

theorem placement_kraft (t : Tree) (d : ℕ) : kraftSum ((t.placement d).map (·.1)) = (1 / 2) ^ d := by
  induction t generalizing d with
  | leaf b f => simp [Tree.placement]
  | internal f a l r ihl ihr =>
    rw [Tree.placement, Multiset.map_add, kraftSum_add, ihl, ihr, half_pow_succ_add_self]

theorem placement_cost (t : Tree) (d : ℕ) : (t.placement d).cost = t.costFrom d := by
  induction t generalizing d with
  | leaf b f => simp [Tree.placement, Placement.cost]
  | internal f a l r ihl ihr =>
    rw [Tree.costFrom, ← ihl, ← ihr]
    simp [Tree.placement, Placement.cost]

theorem placement_fills {freq : ByteTable Word64} {t : Tree} (h : t.leafPairs.Perm (occurring freq)) :
    (t.placement 0).Fills (candidates freq) (t.costFrom 0) where
  trees := by
    rw [placement_trees, candidates_eq]
    exact Multiset.coe_eq_coe.mpr (h.map _)
  kraft := (placement_kraft t 0).trans (pow_zero _)
  cost := (placement_cost t 0).le

/-! ### The merge loop -/

theorem mergeLoop_of_buildTree {lf : Bool} {freq : ByteTable Word64} {t : Tree} (h : (buildTree lf freq).1 = some t) :
    (mergeLoop lf (candidates freq).length 0 (candidates freq)).1 = [t] := by
  have hpos : 0 < leafCount freq := by
    refine Nat.pos_of_ne_zero fun h0 => ?_
    rw [buildTree_of_leafCount_eq_zero lf h0] at h
    cases h
  obtain ⟨u, hu⟩ := mergeLoop_candidates lf hpos
  simp only [buildTree, hu, List.head?_cons] at h ⊢
  cases h
  rfl

/-- What the merge loop keeps: the build's invariant, and a placement of the candidates that costs at most K. -/
def PlacedWithin (freq : ByteTable Word64) (K : ℕ) (c : List Tree) (age : BitVec 8) : Prop :=
  BuildInvariant freq c age ∧ ∃ P : Placement, P.Fills c K

theorem PlacedWithin.round {freq : ByteTable Word64} {K : ℕ} {c c1 c2 : List Tree} {n1 n2 : Tree} {age : BitVec 8} (lf : Bool)
    (hlt : freqSum freq < 2 ^ 64) (h : PlacedWithin freq K c age) (h1 : takeLeast c = some (n1, c1))
    (h2 : takeLeast c1 = some (n2, c2)) : PlacedWithin freq K (merge lf n1 n2 age :: c2) (age + 1) := by
  obtain ⟨hinv, P, htrees, hkraft, hcost⟩ := h
  have hperm := takeTwo_perm h1 h2
  have hinv := hinv.perm hperm
  have hP : P.Fills (n1 :: n2 :: c2) K := ⟨htrees.trans (Multiset.coe_eq_coe.mpr hperm), hkraft, hcost⟩
  refine ⟨hinv.merge lf hlt, hP.merge lf age hinv.sums (fun t ht => ?_) (takeLeast_freq_le h2)⟩
  exact takeLeast_freq_le h1 t ((takeLeast_perm h2).mem_iff.mpr ht)

/-- Settles O46: the other tree places the first candidates, each round makes a placement that costs no more, and the last is the root's. -/
theorem builtTreeIsOptimal : Obligations.BuiltTreeIsOptimal := by
  intro lf freq t t' hlt ht hleaves
  have hocc : t.leafPairs.Perm (occurring freq) := by
    simpa using (buildTree_invariant (age := (buildTree lf freq).2) hlt (Prod.ext ht rfl)).leaves
  have hstart : PlacedWithin freq (t'.costFrom 0) (candidates freq) 0 :=
    ⟨.candidates freq, _, placement_fills (hleaves.trans hocc)⟩
  obtain ⟨-, P, hP⟩ := mergeLoop_induction (lf := lf) (P := PlacedWithin freq (t'.costFrom 0))
    (fun _ _ _ _ _ _ hc h1 h2 => hc.round lf hlt h1 h2) (candidates freq).length 0 _ hstart
  rw [mergeLoop_of_buildTree ht] at hP
  exact hP.cost_le

end Sys2Proof.Machine
end

section
/-! PROOFS. The paths of a tree, their values, and the codes the walk writes for them (spec/42_code_assigner.md R130 to R134). -/

namespace Sys2Proof.Machine

/-! ### Path values -/

/-- A path's value fits in as many bits as the path has decisions (R131). -/
theorem pathValue_lt (path : List Bool) : pathValue path < 2 ^ path.length := by
  induction path with
  | nil => decide
  | cons x path ih =>
    have := x.toNat_lt
    rw [pathValue_cons, List.length_cons, pow_succ]
    omega

/-- Bit i of a path's value is decision i (R131). -/
theorem pathValue_testBit (path : List Bool) (i : Nat) : (pathValue path).testBit i = path.getD i false := by
  induction path generalizing i with
  | nil => simp [pathValue]
  | cons x path ih =>
    rw [pathValue_cons, add_comm, ← Nat.bit_val]
    cases i with
    | zero => simp
    | succ i => simpa [Nat.testBit_bit_succ] using ih i

theorem getLsbD_ofNat_pathValue (path : List Bool) (i : Nat) :
    (BitVec.ofNat 256 (pathValue path)).getLsbD i = (decide (i < 256) && path.getD i false) := by
  rw [BitVec.getLsbD_ofNat, pathValue_testBit]

/-- The walk's step in the value: decision x goes to bit d, the rest of the path to the bits above (R130). -/
theorem ofNat_pathValue_cons_shiftLeft (x : Bool) (path : List Bool) (d : Nat) :
    BitVec.ofNat 256 (pathValue (x :: path)) <<< d =
      (if x then 1#256 <<< d else 0#256) ||| BitVec.ofNat 256 (pathValue path) <<< (d + 1) := by
  have hbit : BitVec.ofNat 256 (pathValue (x :: path)) = (if x then 1#256 else 0#256) ||| BitVec.ofNat 256 (pathValue path) <<< 1 := by
    refine BitVec.eq_of_getLsbD_eq fun i hi => ?_
    rw [BitVec.getLsbD_or, BitVec.getLsbD_shiftLeft, getLsbD_ofNat_pathValue, getLsbD_ofNat_pathValue]
    cases i with
    | zero => cases x <;> simp
    | succ i => cases x <;> simp [hi, Nat.lt_of_succ_lt hi]
  rw [hbit, BitVec.shiftLeft_or_distrib, add_comm d 1, BitVec.shiftLeft_add]
  cases x <;> simp

/-- The low bits of a path's value, as many as the path is long, are the path (R131, R160). -/
theorem codeBits_of_toNat_eq {v : CodeWord} {path : List Bool} (h : v.toNat = pathValue path) : codeBits v path.length = path := by
  refine List.ext_getElem (by simp [codeBits]) fun i _ hi => ?_
  simp [codeBits, BitVec.getLsbD, h, pathValue_testBit, hi]

/-! ### The paths of a tree -/

/-- No leaf stands below another leaf, so no path goes on from the end of another one. -/
theorem paths_prefixFree {t : Tree} {b c : Byte} {p q : List Bool} (hb : (b, p) ∈ t.paths) (hc : (c, q) ∈ t.paths) (hpq : p <+: q) :
    b = c := by
  induction t generalizing p q with
  | leaf s f =>
    obtain ⟨rfl, -⟩ : b = s ∧ p = [] := by simpa [Tree.paths] using hb
    obtain ⟨rfl, -⟩ : c = b ∧ q = [] := by simpa [Tree.paths] using hc
    rfl
  | internal f a l r ihl ihr =>
    simp only [Tree.paths, List.mem_append, List.mem_map, Prod.mk.injEq, Prod.exists] at hb hc
    rcases hb with ⟨_, p, hp, rfl, rfl⟩ | ⟨_, p, hp, rfl, rfl⟩
    · rcases hc with ⟨_, q, hq, rfl, rfl⟩ | ⟨_, q, hq, rfl, rfl⟩
      · exact ihl hp hq (List.cons_prefix_cons.mp hpq).2
      · simp at hpq
    · rcases hc with ⟨_, q, hq, rfl, rfl⟩ | ⟨_, q, hq, rfl, rfl⟩
      · simp at hpq
      · exact ihr hp hq (List.cons_prefix_cons.mp hpq).2

/-- Only a root that is a leaf has the empty path. -/
theorem isLeaf_of_nil_path {t : Tree} {b : Byte} (h : (b, []) ∈ t.paths) : t.isLeaf = true := by
  cases t with
  | leaf s f => rfl
  | internal f a l r => simp [Tree.paths] at h

/-! ### The walk -/

/-- From depth d and value v the walk gives a leaf its path's length beyond d and its path's value above the bits of v (R130, R131). -/
theorem walk_leaf {t : Tree} (hnodup : (t.paths.map (·.1)).Nodup) {b : Byte} {path : List Bool} (hb : (b, path) ∈ t.paths) (d : Nat)
    (v : CodeWord) (c : CodeTable) :
    tableGet (walk t d v c).len b = BitVec.ofNat 8 (d + path.length) ∧
      tableGet (walk t d v c).val b = v ||| BitVec.ofNat 256 (pathValue path) <<< d := by
  induction t generalizing path d v c with
  | leaf s f =>
    obtain ⟨rfl, rfl⟩ : b = s ∧ path = [] := by simpa [Tree.paths] using hb
    simp [walk, pathValue]
  | internal f a l r ihl ihr =>
    simp only [Tree.paths, List.map_append, List.map_map, Function.comp_def] at hnodup
    obtain ⟨hl, hr, hdisj⟩ := List.nodup_append'.mp hnodup
    simp only [Tree.paths, List.mem_append, List.mem_map, Prod.mk.injEq, Prod.exists] at hb
    rw [walk]
    rcases hb with ⟨_, path, hb, rfl, rfl⟩ | ⟨_, path, hb, rfl, rfl⟩
    · obtain ⟨hlen, hval⟩ := walk_absent (hdisj (List.mem_map_of_mem hb)) (d + 1) (v ||| 1#256 <<< d) (walk l (d + 1) v c)
      obtain ⟨hlen', hval'⟩ := ihl hl hb (d + 1) v c
      rw [hlen, hlen', hval, hval', ofNat_pathValue_cons_shiftLeft, List.length_cons]
      exact ⟨by congr 1; omega, by simp⟩
    · obtain ⟨hlen, hval⟩ := ihr hr hb (d + 1) (v ||| 1#256 <<< d) (walk l (d + 1) v c)
      rw [hlen, hval, ofNat_pathValue_cons_shiftLeft, List.length_cons]
      exact ⟨by congr 1; omega, by simp [BitVec.or_assoc]⟩

/-- Settles O47: the walk starts at depth 0 with value 0 and an all-zero table, and neither length nor value of a path wraps. -/
theorem codesSpellTheirPaths : Obligations.CodesSpellTheirPaths := by
  refine fun t hnodup hdepth => ⟨fun ⟨b, path⟩ hp => ?_, fun b hb => by simpa [codesOf] using walk_absent hb 0 0 emptyCodes⟩
  obtain ⟨hlen, hval⟩ := walk_leaf hnodup hp 0 0 emptyCodes
  have hle : path.length ≤ 255 := hdepth _ hp
  have hlt : pathValue path < 2 ^ 256 := (pathValue_lt path).trans_le (Nat.pow_le_pow_right (by decide) (by omega))
  constructor
  · rw [codesOf, hlen, zero_add, BitVec.toNat_ofNat, Nat.mod_eq_of_lt (by omega)]
  · rw [codesOf, hval, BitVec.shiftLeft_zero, BitVec.ofNat_eq_ofNat, BitVec.zero_or, BitVec.toNat_ofNat, Nat.mod_eq_of_lt hlt]

end Sys2Proof.Machine
end

section
/-! PROOFS. The command ASSIGN and the codes of the bytes in a state whose registers agree (spec/42_code_assigner.md R130 to R134). -/

namespace Sys2Proof.Machine

/-! ### The command -/

section
variable {s : State}

theorem exec_assign_of_built (hp : s.phase = .built) : exec .assign s = .next (finish (assignEffect s)) :=
  runCommand_of_completes (by simp [hp]) (commandError_eq_none.mpr ⟨by simp [legalIn, hp], rfl⟩)

theorem exec_assign_of_wrongPhase (hp : s.phase ≠ .built) (he : s.phase ≠ .error) : exec .assign s = .next (raise .sequenceError s) :=
  runCommand_of_raises he (by simp [commandError, legalIn, hp])

theorem exec_encode_of_absent {b : Byte} (hp : s.phase = .payload) (hb : tableGet s.freq b = 0) :
    exec (.encode b) s = .next (raise .symbolAbsent s) :=
  runCommand_of_raises (by simp [hp]) (by simp [commandError, legalIn, hp, ownError, hb])

end

/-- Settles O21: the effect of ASSIGN with and without a tree, the wrong phases as the dispatch refuses them, and the malformed word. -/
theorem assignWritesTheWalk : Obligations.AssignWritesTheWalk := by
  refine ⟨fun s t hp ht => ?_, fun s hp ht => ?_, fun _ => exec_assign_of_wrongPhase, fun _ hp hopc hw => ?_, rfl⟩
  · rw [exec_assign_of_built hp, assignEffect, ht]; rfl
  · rw [exec_assign_of_built hp, assignEffect, ht]; rfl
  · exact (engineStep_of_malformed (malformed_of_plain_opcode hopc (by decide) (by decide) hw)).trans (execIllegal_of_ne_error hp)

/-! ### The leaves of the stored tree -/

theorem present_iff {s : State} {b : Byte} : present b s = true ↔ s.codesV = true ∧ tableGet s.freq b ≠ 0 := by
  simp [present]

theorem mem_occurring_bytes {freq : ByteTable Word64} {b : Byte} : b ∈ (occurring freq).map (·.1) ↔ tableGet freq b ≠ 0 := by
  simp [occurring]

section
variable {s : State} {t : Tree} {b : Byte} (h : RegistersAgree s)
include h

theorem RegistersAgree.treeFor (ht : s.tree = some t) : TreeFor s.freq t :=
  (buildTree_invariant (h.total ▸ s.total.isLt) (h.hasTree t ht).1).treeFor

theorem RegistersAgree.paths_bytes_perm (ht : s.tree = some t) : (t.paths.map (·.1)).Perm ((occurring s.freq).map (·.1)) := by
  rw [paths_bytes]
  exact (h.treeFor ht).leaves.map _

theorem RegistersAgree.paths_bytes_nodup (ht : s.tree = some t) : (t.paths.map (·.1)).Nodup :=
  (h.paths_bytes_perm ht).nodup_iff.mpr (occurring_bytes_nodup s.freq)

/-- The leaf bytes of the stored tree are the bytes that occur (R29). -/
theorem RegistersAgree.mem_paths_bytes (ht : s.tree = some t) : b ∈ t.paths.map (·.1) ↔ tableGet s.freq b ≠ 0 :=
  (h.paths_bytes_perm ht).mem_iff.trans mem_occurring_bytes

/-- No leaf of the stored tree is deeper than a code may be long (R118). -/
theorem RegistersAgree.path_length_le (ht : s.tree = some t) : ∀ p ∈ t.paths, p.2.length ≤ 255 := fun p hp => by
  have := (h.treeFor ht).depth p hp
  have := leafCount_le s.freq
  omega

/-! ### The code registers -/

/-- The code of a present byte spells the path to the byte's leaf (R131). -/
theorem RegistersAgree.exists_path (hb : present b s = true) : ∃ t path, s.tree = some t ∧ (b, path) ∈ t.paths ∧
    (tableGet s.codeLen b).toNat = path.length ∧ codeBits (tableGet s.codeVal b) (tableGet s.codeLen b).toNat = path := by
  obtain ⟨hv, hfreq⟩ := present_iff.mp hb
  obtain ⟨t, ht⟩ : ∃ t, s.tree = some t := Option.ne_none_iff_exists'.mp fun hnone => by
    obtain ⟨-, -, -, -, hv'⟩ := h.noTree hnone
    simp [hv] at hv'
  obtain ⟨⟨b, path⟩, hpath, rfl⟩ := List.mem_map.mp ((h.mem_paths_bytes ht).mpr hfreq)
  obtain ⟨hlen, hval⟩ := h.codes
  rw [if_pos hv, ht] at hlen hval
  obtain ⟨hspell, -⟩ := codesSpellTheirPaths t (h.paths_bytes_nodup ht) (h.path_length_le ht)
  obtain ⟨hl, hn⟩ := hspell _ hpath
  rw [← hlen] at hl
  rw [← hval] at hn
  exact ⟨t, path, ht, hpath, hl, hl ▸ codeBits_of_toNat_eq hn⟩

/-- A byte that is not present has no code: without codes the table is all 0, and with them the byte is no leaf (R31, R133). -/
theorem RegistersAgree.code_of_absent (hb : present b s = false) : tableGet s.codeLen b = 0 ∧ tableGet s.codeVal b = 0 := by
  obtain ⟨hlen, hval⟩ := h.codes
  rw [hlen, hval]
  cases hv : s.codesV with
  | false => simp [codesOf]
  | true =>
    have hfreq : tableGet s.freq b = 0 := by simpa [present, hv] using hb
    cases ht : s.tree with
    | none => simp [codesOf]
    | some t =>
      have hmem : b ∉ t.paths.map (·.1) := fun hmem => (h.mem_paths_bytes ht).mp hmem hfreq
      simpa [codesOf] using walk_absent hmem 0 0 emptyCodes

end

/-- Settles O48: a single leaf has the empty path, and a present byte with the empty path is the root. -/
theorem zeroLengthCodeOnlyWhenDegenerate : Obligations.ZeroLengthCodeOnlyWhenDegenerate := by
  refine ⟨fun s b f hp ht => ⟨_, exec_assign_of_built hp, ?_, ?_⟩, fun s b h hb hlen => ?_⟩
  · simp [ht, codesOf, walk]
  · simp [ht, codesOf, walk]
  · obtain ⟨t, path, ht, hpath, hl, -⟩ := h.exists_path hb
    obtain rfl : path = [] := List.eq_nil_of_length_eq_zero (by simp [← hl, hlen])
    simpa [degen, ht] using isLeaf_of_nil_path hpath

/-- Settles O49: a byte that does not occur is not present, and ENCODE finds its frequency 0. -/
theorem absentBytesHaveNoCode : Obligations.AbsentBytesHaveNoCode := by
  refine fun s b h => ⟨fun hfreq => ?_, h.code_of_absent⟩
  have habsent : present b s = false := by simp [present, hfreq]
  obtain ⟨hlen, hval⟩ := h.code_of_absent habsent
  exact ⟨habsent, hlen, hval, fun hp => exec_encode_of_absent hp hfreq⟩

/-- Settles O50: the two codes spell paths of one tree, and no path of a tree begins another leaf's. -/
theorem codesArePrefixFree : Obligations.CodesArePrefixFree := by
  intro s b c h hb hc hne hprefix
  obtain ⟨t, p, ht, hp, -, hbits⟩ := h.exists_path hb
  obtain ⟨u, q, hu, hq, -, hbits'⟩ := h.exists_path hc
  obtain rfl : t = u := Option.some.inj (ht.symm.trans hu)
  rw [hbits, hbits'] at hprefix
  exact hne (paths_prefixFree hp hq hprefix)

end Sys2Proof.Machine
end

section
/-! PROOFS. The records of a tree's nodes, the tree block, and its parse (spec/43_serializer.md R140, R144, R149). -/

namespace Sys2Proof.Machine

/-! ### Records -/

/-- A record bit by bit (R140, R141): the leaf flag, the frequency's low 55 bits, the byte field. -/
theorem record_getLsbD (n : Tree) (i : Nat) : n.record.getLsbD i =
    if i = 0 then n.isLeaf else if i < 56 then n.freq.getLsbD (i - 1) else n.recordByte.getLsbD (i - 56) := by
  show BitVec.getLsbD (w := 8 + 55 + 1) _ _ = _
  simp only [Tree.record, BitVec.getLsbD_append, BitVec.getLsbD_ofBool, BitVec.getLsbD_setWidth]
  grind

theorem record_leafFlag (n : Tree) : n.record.getLsbD 0 = n.isLeaf := record_getLsbD n 0

theorem record_freqField (n : Tree) : n.record.extractLsb' 1 55 = n.freq.setWidth 55 := by
  refine BitVec.eq_of_getLsbD_eq fun i hi => ?_
  have hi' : 1 + i < 56 := by omega
  simp [record_getLsbD, hi, hi']

theorem record_byteField (n : Tree) : n.record.extractLsb' 56 8 = n.recordByte := by
  refine BitVec.eq_of_getLsbD_eq fun i hi => ?_
  simp [record_getLsbD, hi]

/-- A record's fields, each shifted to its place and or-ed together (R140). -/
theorem record_eq_or (n : Tree) : n.record =
    (BitVec.ofBool n.isLeaf).setWidth 64 ||| (n.freq.setWidth 55).setWidth 64 <<< 1 ||| n.recordByte.setWidth 64 <<< 56 := by
  refine BitVec.eq_of_getLsbD_eq fun i hi => ?_
  simp only [record_getLsbD, BitVec.getLsbD_or, BitVec.getLsbD_setWidth, BitVec.getLsbD_shiftLeft, BitVec.getLsbD_ofBool]
  grind

/-- Settles O51: both forms of a record are its three fields, and an internal node's flag and byte field are 0. -/
theorem recordFields : Obligations.RecordFields := by
  refine ⟨fun b f => record_eq_or (.leaf b f), fun f a l r => ?_⟩
  rw [record_eq_or]
  simp [Tree.isLeaf, Tree.recordByte, Tree.freq]

/-! ### The tree block and its parse -/

/-- The tree block has eight bytes for each node (R144). -/
theorem length_treeBlock (t : Tree) : (treeBlock (some t)).length = 8 * t.preorder.length := by
  simp [treeBlock, List.length_flatMap, bytesLE_length, Nat.mul_comm]

theorem treeBlock_leaf (b : Byte) (f : Word64) : treeBlock (some (.leaf b f)) = bytesLE (Tree.leaf b f).record := by
  simp [treeBlock, Tree.preorder]

theorem treeBlock_internal (f : Word64) (a : BitVec 8) (l r : Tree) : treeBlock (some (.internal f a l r)) =
    bytesLE (Tree.internal f a l r).record ++ (treeBlock (some l) ++ treeBlock (some r)) := by
  simp [treeBlock, Tree.preorder]

/-- The parse's reading of a record is inverse to its writing, least significant byte first (R144, R149). -/
theorem nextRecord_bytesLE (r : Word64) (rest : List Byte) : nextRecord (bytesLE r ++ rest) = some (r, rest) := by
  rw [bytesLE_eq]
  simp only [nextRecord, List.cons_append, List.nil_append, Option.some.injEq, Prod.mk.injEq, and_true]
  simp (disch := decide) only [BitVec.extractLsb'_append_extractLsb'_eq_extractLsb']
  exact BitVec.extractLsb'_eq_self

/-- One round of the parse on a leaf's record (R149). -/
theorem parseWith_leaf (b : Byte) (f : Word64) (fuel : Nat) (rest : List Byte) :
    parseWith (fuel + 1) (bytesLE (Tree.leaf b f).record ++ rest) = some (.leaf b (f.setWidth 55), rest) := by
  rw [parseWith, nextRecord_bytesLE]
  dsimp only
  rw [record_leafFlag, record_byteField, record_freqField]
  rfl

/-- One round of the parse on an internal node's record: the left subtree is parsed, then the right one (R149). -/
theorem parseWith_internal {f : Word64} {a : BitVec 8} {l r : Tree} {fuel : Nat} {bytes bytes' rest : List Byte} {pl pr : Parsed}
    (hl : parseWith fuel bytes = some (pl, bytes')) (hr : parseWith fuel bytes' = some (pr, rest)) :
    parseWith (fuel + 1) (bytesLE (Tree.internal f a l r).record ++ bytes) = some (.internal (f.setWidth 55) pl pr, rest) := by
  rw [parseWith, nextRecord_bytesLE]
  dsimp only
  rw [record_leafFlag, record_freqField, hl]
  dsimp only
  rw [hr]
  rfl

/-- With a bound of at least as many rounds as the tree has nodes the parse reads the tree block and stops right after it (R149). -/
theorem parseWith_treeBlock {t : Tree} {fuel : Nat} (h : t.preorder.length ≤ fuel) (rest : List Byte) :
    parseWith fuel (treeBlock (some t) ++ rest) = some (t.forget, rest) := by
  induction t generalizing fuel rest with
  | leaf b f =>
    obtain ⟨fuel, rfl⟩ := Nat.exists_eq_add_of_le' h
    rw [treeBlock_leaf]
    exact parseWith_leaf b f fuel rest
  | internal f a l r ihl ihr =>
    simp only [Tree.preorder, List.length_cons, List.length_append] at h
    obtain ⟨fuel, rfl⟩ := Nat.exists_eq_add_of_le' (Nat.le_of_add_left_le h)
    rw [treeBlock_internal, List.append_assoc, List.append_assoc]
    exact parseWith_internal (ihl (by omega) _) (ihr (by omega) rest)

/-- Settles O52: the stream has at least as many bytes as the tree has nodes, so the parse's bound is large enough. -/
theorem treeBlockParsesBack : Obligations.TreeBlockParsesBack := by
  refine fun t rest => parseWith_treeBlock ?_ rest
  rw [List.length_append, length_treeBlock]
  omega

end Sys2Proof.Machine
end

section
/-! PROOFS. The commands EMIT_HDR, EMIT_TREE and EMIT_SEP, and the tree records read back (spec/43_serializer.md R142 to R148). -/

namespace Sys2Proof.Machine

/-! ### The dispatch of a command -/

section
variable {s : State}

/-- A command other than CLEAR in its legal phase, with its own condition not met, has its effect (R84, R85). -/
theorem exec_of_completes {i : Instr} (hc : i ≠ .clear) (hlegal : legalIn i s.phase = true) (hown : ownError i s = none) :
    exec i s = .next (finish (effectOf i s)) := by
  rw [exec_eq_runCommand hc]
  exact runCommand_of_completes (ne_error_of_legal hc hlegal) (commandError_eq_none.mpr ⟨hlegal, hown⟩)

/-- A command in a wrong phase raises SEQUENCE_ERROR (R204). -/
theorem exec_of_wrongPhase {i : Instr} (h : WrongPhase i s.phase) (hp : s.phase ≠ .error) :
    exec i s = .next (raise .sequenceError s) := by
  have hc : i ≠ .clear := by rintro rfl; exact h
  rw [exec_eq_runCommand hc]
  exact runCommand_of_raises hp (by simp [commandError, legalIn_of_wrongPhase h])

/-- A word with the opcode of a command without an operand that is not that command's word is illegal (R82, R83, R203). -/
theorem engineStep_of_wrong_plain_word {opc : BitVec 4} (hopc : s.cur.extractLsb' 28 4 = opc) (hcount : opc ≠ 0x2) (hencode : opc ≠ 0x8)
    (hw : s.cur ≠ opc ++ 0#28) (hp : s.phase ≠ .error) : engineStep s = .next (raise .illegalCommand s) :=
  (engineStep_of_malformed (malformed_of_plain_opcode hopc hcount hencode hw)).trans (execIllegal_of_ne_error hp)

end

/-! ### The emitting commands -/

/-- Settles O22: the effect of EMIT_HDR, the wrong phases as the dispatch refuses them, and the malformed word. -/
theorem emitHdrEmitsMagic : Obligations.EmitHdrEmitsMagic := by
  refine ⟨fun s hp => ?_, fun _ hp => exec_of_wrongPhase (i := .emitHdr) hp,
    fun _ hp hopc hw => engineStep_of_wrong_plain_word hopc (by decide) (by decide) hw hp, rfl⟩
  rw [exec_of_completes (by decide) (by simp [legalIn, hp]) rfl, effectOf, emitHdrEffect, emitAll_eq]
  rfl

/-- Settles O24, as O22 for EMIT_SEP and the separator. -/
theorem emitSepEmitsZeros : Obligations.EmitSepEmitsZeros := by
  refine ⟨fun s hp => ?_, fun _ hp => exec_of_wrongPhase (i := .emitSep) hp,
    fun _ hp hopc hw => engineStep_of_wrong_plain_word hopc (by decide) (by decide) hw hp, rfl⟩
  rw [exec_of_completes (by decide) (by simp [legalIn, hp]) rfl, effectOf, emitSepEffect, emitAll_eq]
  rfl

/-- NODES is the number of nodes of the stored tree (R30, R118). -/
theorem RegistersAgree.length_preorder {s : State} {t : Tree} (h : RegistersAgree s) (ht : s.tree = some t) :
    t.preorder.length = s.nodes.toNat := by
  obtain ⟨-, -, hleaves, hnodes, -⟩ := h.hasTree t ht
  rw [hnodes, hleaves]
  exact (h.treeFor ht).nodes

theorem exec_emitTree_of_hdr {s : State} (hp : s.phase = .hdr) : exec .emitTree s = .next (finish (emitTreeEffect s)) :=
  exec_of_completes (i := .emitTree) (by decide) (by simp [legalIn, hp]) rfl

/-- Settles O23: the tree block is the records' bytes, eight for each node, and NODES counts the nodes. -/
theorem emitTreeEmitsRecords : Obligations.EmitTreeEmitsRecords := by
  refine ⟨fun s t hp ht => ?_, fun s t h ht => by rw [h.length_preorder ht], fun s hp ht => ?_,
    fun _ hp => exec_of_wrongPhase (i := .emitTree) hp,
    fun _ hp hopc hw => engineStep_of_wrong_plain_word hopc (by decide) (by decide) hw hp, rfl⟩
  · rw [exec_emitTree_of_hdr hp, emitTreeEffect, emitAll_eq, ht, length_treeBlock]
    rfl
  · have hblock : treeBlock s.tree = [] := by rw [ht]; rfl
    rw [exec_emitTree_of_hdr hp, emitTreeEffect, hblock]
    rfl

/-! ### TREE_REC -/

theorem treeRecord_of_nodes_le {s : State} {i : Nat} (hi : s.nodes.toNat ≤ i) : treeRecord i s = 0 := by
  unfold treeRecord
  split
  · rfl
  · exact if_neg (Nat.not_lt.mpr hi)

theorem treeRecord_of_node {s : State} {t n : Tree} {i : Nat} (ht : s.tree = some t) (hi : i < s.nodes.toNat)
    (hn : t.preorder[i]? = some n) : treeRecord i s = n.record := by
  simp [treeRecord, ht, hi, hn]

theorem treeRecord_of_no_tree {s : State} (ht : s.tree = none) (i : Nat) : treeRecord i s = 0 := by
  simp [treeRecord, ht]

/-- Every node has its TREE_REC register (R30, R148). -/
theorem RegistersAgree.nodes_le {s : State} (h : RegistersAgree s) : s.nodes.toNat ≤ 511 := by
  cases ht : s.tree with
  | none =>
    obtain ⟨-, hnodes, -⟩ := h.noTree ht
    simp [hnodes]
  | some t =>
    obtain ⟨-, -, hleaves, hnodes, -⟩ := h.hasTree t ht
    have := leafCount_le s.freq
    omega

/-- Settles O39: NODES counts the tree's nodes, so each index below it names one. -/
theorem treeRecordsReadBack : Obligations.TreeRecordsReadBack := by
  refine ⟨fun s t i h ht hi => ?_, fun s i hi hle => ?_, fun s i ht hle => ?_⟩
  · have hlt : i < t.preorder.length := (h.length_preorder ht).symm ▸ hi
    have hle := h.nodes_le
    refine ⟨t.preorder[i], List.getElem?_eq_getElem hlt, ?_⟩
    rw [regRead_treeRec (by omega), treeRecord_of_node ht hi (List.getElem?_eq_getElem hlt)]
  · rw [regRead_treeRec hle, treeRecord_of_nodes_le hi]
  · rw [regRead_treeRec hle, treeRecord_of_no_tree ht]

end Sys2Proof.Machine
end

section
/-! PROOFS. The bytes of a stream of code bits, and how the packing loop makes them (spec/44_bitpacker.md R160 to R162). -/

namespace Sys2Proof.Machine

/-! ### The bytes of a stream -/

/-- Bit k of byte j of a stream's payload is bit 8j + k of the stream, or 0 past its end (R160). -/
theorem payloadByte_getLsbD (bits : List Bool) (j : Nat) {k : Nat} (hk : k < 8) :
    (payloadByte bits j).getLsbD k = bits.getD (8 * j + k) false := by
  have hsum : ((List.range 8).map fun k => if bits.getD (8 * j + k) false then 2 ^ k else 0).sum =
      pathValue ((List.range 8).map fun k => bits.getD (8 * j + k) false) := by
    simp [pathValue, List.range_succ]
  rw [payloadByte, hsum, BitVec.getLsbD_ofNat, pathValue_testBit]
  simp [hk]

/-- Two streams that agree on the bits of byte j have the same byte j. -/
theorem payloadByte_congr {bits bits' : List Bool} {j : Nat}
    (h : ∀ k < 8, bits.getD (8 * j + k) false = bits'.getD (8 * j + k) false) : payloadByte bits j = payloadByte bits' j :=
  BitVec.eq_of_getLsbD_eq fun k hk => by rw [payloadByte_getLsbD _ _ hk, payloadByte_getLsbD _ _ hk, h k hk]

/-- A byte past the end of the stream is 0. -/
theorem payloadByte_of_length_le {bits : List Bool} {j : Nat} (h : bits.length ≤ 8 * j) : payloadByte bits j = 0 :=
  BitVec.eq_of_getLsbD_eq fun k hk => by
    rw [payloadByte_getLsbD _ _ hk, List.getD_eq_default _ _ (by omega)]
    simp

/-- A full byte stays as it is when the stream goes on. -/
theorem payloadByte_append {bits : List Bool} {j : Nat} (more : List Bool) (h : 8 * j + 8 ≤ bits.length) :
    payloadByte (bits ++ more) j = payloadByte bits j :=
  payloadByte_congr fun k _ => List.getD_append _ _ _ _ (by omega)

/-- The full bytes of a stream, read off the stream as it goes on. -/
theorem fullBytes_map_append (bits more : List Bool) :
    (List.range (bits.length / 8)).map (payloadByte (bits ++ more)) = fullBytes bits :=
  List.map_congr_left fun j hj => payloadByte_append more (by have := List.mem_range.mp hj; omega)

/-- Bits that do not fill the last byte add no full byte. -/
theorem fullBytes_append_of_lt {bits more : List Bool} (h : bits.length % 8 + more.length < 8) :
    fullBytes (bits ++ more) = fullBytes bits := by
  rw [← fullBytes_map_append bits more, fullBytes, List.length_append]
  congr 2
  omega

/-- Bits that fill the last byte exactly add that byte. -/
theorem fullBytes_append_of_eq {bits more : List Bool} (h : bits.length % 8 + more.length = 8) :
    fullBytes (bits ++ more) = fullBytes bits ++ [payloadByte (bits ++ more) (bits.length / 8)] := by
  have hlen : (bits ++ more).length / 8 = bits.length / 8 + 1 := by rw [List.length_append]; omega
  rw [← fullBytes_map_append bits more, fullBytes, hlen, List.range_succ, List.map_append]
  rfl

/-- The payload of a stream of whole bytes is its full bytes. -/
theorem payload_of_aligned {bits : List Bool} (h : bits.length % 8 = 0) : payload bits = fullBytes bits := by
  rw [payload, fullBytes]
  congr 2
  omega

/-- The payload of any other stream is its full bytes and the partial byte, with zeros above (R160, R162). -/
theorem payload_of_partial {bits : List Bool} (h : bits.length % 8 ≠ 0) :
    payload bits = fullBytes bits ++ [payloadByte bits (bits.length / 8)] := by
  have hlen : (bits.length + 7) / 8 = bits.length / 8 + 1 := by omega
  rw [payload, fullBytes, hlen, List.range_succ, List.map_append]
  rfl

/-! ### The bits of a code -/

theorem length_codeBits (v : CodeWord) (n : Nat) : (codeBits v n).length = n := by simp [codeBits]

theorem codeBits_getD (v : CodeWord) {n i : Nat} (h : i < n) : (codeBits v n).getD i false = v.getLsbD i := by
  simp [codeBits, h]

/-- The low k bits of a code, then the others. -/
theorem codeBits_add (v : CodeWord) (k n : Nat) : codeBits v (k + n) = codeBits v k ++ codeBits (v >>> k) n := by
  simp [codeBits, List.range_add, Function.comp_def]

theorem streamOf_concat (s : State) (bs : List Byte) (b : Byte) :
    streamOf s (bs ++ [b]) = streamOf s bs ++ codeBits (tableGet s.codeVal b) (tableGet s.codeLen b).toNat := by
  simp [streamOf]

/-- The byte under way takes the next k bits of a code at its fill (R161). -/
theorem payloadByte_or_placeBits (bits : List Bool) (v : CodeWord) {k : Nat} (h : bits.length % 8 + k ≤ 8) :
    payloadByte bits (bits.length / 8) ||| placeBits v k (bits.length % 8) =
      payloadByte (bits ++ codeBits v k) (bits.length / 8) := by
  refine BitVec.eq_of_getLsbD_eq fun i hi => ?_
  rw [BitVec.getLsbD_or, payloadByte_getLsbD _ _ hi, payloadByte_getLsbD _ _ hi, placeBits_getLsbD v h]
  by_cases hlow : 8 * (bits.length / 8) + i < bits.length
  · have hfill : ¬ bits.length % 8 ≤ i := by omega
    rw [List.getD_append _ _ _ _ hlow]
    simp [hfill]
  · have hfill : bits.length % 8 ≤ i := by omega
    have hsub : 8 * (bits.length / 8) + i - bits.length = i - bits.length % 8 := by omega
    rw [List.getD_eq_default _ _ (Nat.le_of_not_lt hlow), List.getD_append_right _ _ _ _ (Nat.le_of_not_lt hlow), hsub]
    by_cases hk : i < bits.length % 8 + k
    · rw [codeBits_getD v (by omega)]
      simp [hfill, hk]
    · rw [List.getD_eq_default _ _ (by rw [length_codeBits]; omega)]
      simp [hk]

/-! ### The packing loop -/

/-- What the packer owes to a stream (R32, R160): its full bytes have been emitted after `front`, the others of its bits stand in ACC, and
`fill` counts them. -/
structure HoldsStream (front : List Byte) (bits : List Bool) (fill : Nat) (s : State) : Prop where
  emitted : emitted s = front ++ fullBytes bits
  acc : s.acc = payloadByte bits (bits.length / 8)
  fill : fill = bits.length % 8

section
variable {front : List Byte} {bits : List Bool} {s : State} {v : CodeWord} {k f : Nat}

/-- One round that fills the byte: it is emitted and the next one is empty. -/
theorem HoldsStream.emit_full (h : HoldsStream front bits f s) (hk : f + k = 8) :
    HoldsStream front (bits ++ codeBits v k) 0 { emit (s.acc ||| placeBits v k f) s with acc := 0 } := by
  obtain ⟨hem, hacc, rfl⟩ := h
  have hlen := length_codeBits v k
  rw [hacc, payloadByte_or_placeBits bits v hk.le]
  constructor
  · rw [fullBytes_append_of_eq (hlen.symm ▸ hk), ← List.append_assoc, ← hem]
    exact (List.append_assoc ..).symm
  · exact (payloadByte_of_length_le (by rw [List.length_append]; omega)).symm
  · rw [List.length_append]
    omega

/-- One round that does not fill the byte: the bits go into ACC. -/
theorem HoldsStream.place (h : HoldsStream front bits f s) (hk : f + k < 8) :
    HoldsStream front (bits ++ codeBits v k) (f + k) { s with acc := s.acc ||| placeBits v k f } := by
  obtain ⟨hem, hacc, rfl⟩ := h
  have hlen := length_codeBits v k
  have hdiv : (bits ++ codeBits v k).length / 8 = bits.length / 8 := by rw [List.length_append]; omega
  constructor
  · rw [fullBytes_append_of_lt (hlen.symm ▸ hk), ← hem]
    rfl
  · rw [hdiv, ← payloadByte_or_placeBits bits v hk.le, ← hacc]
  · rw [List.length_append]
    omega

/-- With no bits left the loop stores the fill. -/
theorem HoldsStream.stop (h : HoldsStream front bits f s) :
    HoldsStream front (bits ++ codeBits v 0) (BitVec.ofNat 3 f).toNat { s with fill := BitVec.ofNat 3 f } := by
  obtain ⟨hem, hacc, rfl⟩ := h
  rw [show codeBits v 0 = [] from rfl, List.append_nil]
  exact ⟨hem, hacc, by simp⟩

end

/-- The packing loop appends the bits of its code to the stream (R161). -/
theorem packLoop_holdsStream {front : List Byte} {bits : List Bool} {fuel n f : Nat} (v : CodeWord) {s : State} (hn : n ≤ fuel)
    (h : HoldsStream front bits f s) :
    HoldsStream front (bits ++ codeBits v n) (packLoop fuel v n f s).fill.toNat (packLoop fuel v n f s) := by
  induction fuel generalizing bits v n f s with
  | zero =>
    obtain rfl : n = 0 := by omega
    exact h.stop
  | succ m ih =>
    rw [packLoop]
    split
    · next h0 => subst h0; exact h.stop
    · next h0 =>
      have hf : f < 8 := h.fill ▸ Nat.mod_lt _ (by decide)
      obtain ⟨hk, hkf, hpos⟩ : min n (8 - f) ≤ n ∧ f + min n (8 - f) ≤ 8 ∧ 0 < min n (8 - f) := by omega
      generalize min n (8 - f) = k at hk hkf hpos
      have hbits : bits ++ codeBits v n = bits ++ codeBits v k ++ codeBits (v >>> k) (n - k) := by
        rw [List.append_assoc, ← codeBits_add, Nat.add_sub_cancel' hk]
      rw [hbits]
      dsimp only
      split
      · next hfull => exact ih (v >>> k) (show n - k ≤ m by omega) (h.emit_full hfull)
      · next hfull => exact ih (v >>> k) (show n - k ≤ m by omega) (h.place (Nat.lt_of_le_of_ne hkf hfull))

/-- ENCODE appends the code of its byte to the stream (R160, R161). -/
theorem encodeByte_holdsStream {front bs : List Byte} (b : Byte) {s : State} (h : HoldsStream front (streamOf s bs) s.fill.toNat s) :
    HoldsStream front (streamOf s (bs ++ [b])) (encodeByte b s).fill.toNat (encodeByte b s) := by
  obtain ⟨hem, hacc, hfill⟩ := h
  rw [streamOf_concat]
  exact packLoop_holdsStream _ le_rfl ⟨hem, hacc, hfill⟩

/-- ENCODE leaves the code table alone. -/
theorem streamOf_encodeByte (b : Byte) (s : State) (bs : List Byte) : streamOf (encodeByte b s) bs = streamOf s bs := by
  rw [encodeByte_frame]
  rfl

/-- FLUSH completes the payload of the stream (R160, R162). -/
theorem HoldsStream.emitted_flushEffect {front : List Byte} {bits : List Bool} {s : State}
    (h : HoldsStream front bits s.fill.toNat s) : Machine.emitted (flushEffect s) = front ++ payload bits := by
  obtain ⟨hem, hacc, hfill⟩ := h
  unfold flushEffect
  split
  · next hzero =>
    rw [payload_of_aligned (by rw [← hfill, hzero]; rfl)]
    exact hem
  · next hzero =>
    rw [payload_of_partial (fun h0 => hzero (BitVec.eq_of_toNat_eq (hfill.trans h0))), ← List.append_assoc, ← hem, ← hacc]
    exact (List.append_assoc ..).symm

end Sys2Proof.Machine
end

section
/-! PROOFS. Every step keeps the emitted bytes the beginning of one container (spec/43_serializer.md R147, spec/10_state.md R34). -/

namespace Sys2Proof.Machine

/-! ### The count of the output -/

/-- OUT_BYTES is the number of bytes emitted, modulo 2^64 (R34). -/
def CountsOutput (s : State) : Prop := s.outBytes = BitVec.ofNat 64 (emitted s).length

theorem CountsOutput.append {s t : State} (h : CountsOutput s) (xs : List Byte) (hem : emitted t = emitted s ++ xs)
    (hout : t.outBytes = s.outBytes + BitVec.ofNat 64 xs.length) : CountsOutput t := by
  rw [CountsOutput, hem, hout, List.length_append, BitVec.ofNat_add, ← h]

theorem CountsOutput.emit {s : State} (h : CountsOutput s) (x : Byte) : CountsOutput (emit x s) :=
  h.append [x] (List.append_assoc ..).symm rfl

theorem emitted_emitAll (xs : List Byte) (s : State) : emitted (emitAll xs s) = emitted s ++ xs := by
  rw [emitAll_eq]
  exact (List.append_assoc ..).symm

theorem CountsOutput.emitAll {s : State} (h : CountsOutput s) (xs : List Byte) : CountsOutput (emitAll xs s) :=
  h.append xs (emitted_emitAll xs s) (by rw [emitAll_eq])

/-- The packing loop counts each byte it emits. -/
theorem CountsOutput.packLoop {s : State} (h : CountsOutput s) (fuel : Nat) (v : CodeWord) (n f : Nat) :
    CountsOutput (packLoop fuel v n f s) := by
  induction fuel generalizing v n f s with
  | zero => exact h
  | succ m ih =>
    rw [Machine.packLoop]
    split
    · exact h
    · dsimp only
      split
      · refine ih ?_ _ _ _
        exact h.emit _
      · refine ih ?_ _ _ _
        exact h

theorem CountsOutput.encodeByte {s : State} (h : CountsOutput s) (b : Byte) : CountsOutput (encodeByte b s) := by
  refine CountsOutput.packLoop ?_ _ _ _ _
  exact h

theorem CountsOutput.flushEffect {s : State} (h : CountsOutput s) : CountsOutput (flushEffect s) := by
  unfold Machine.flushEffect
  split
  · exact h
  · exact h.emit s.acc

/-! ### The parts of the container, phase by phase -/

/-- What has been emitted in a phase (R147, R220, R221). -/
def OutputIn : Phase → State → Prop
  | .count, s | .built, s | .coded, s => emitted s = []
  | .hdr, s => emitted s = magic
  | .tree, s => emitted s = magic ++ treeBlock s.tree
  | .payload, s => PackedSoFar (magic ++ treeBlock s.tree ++ separator) s
  | .done, s => PackedWhole s
  | .error, _ => True

/-- The packer and its counters are at reset (R32, R33). -/
def PackerAtReset (s : State) : Prop := s.acc = 0 ∧ s.fill = 0 ∧ s.payloadBits = 0 ∧ s.encCount = 0

/-- The invariant asks of a state what its own phase asks. -/
theorem outputIsContainerPrefix_iff {s : State} : OutputIsContainerPrefix s ↔
    OutputIn s.phase s ∧ (s.phase ≠ .payload → s.phase ≠ .done → s.phase ≠ .error → PackerAtReset s) ∧ CountsOutput s := by
  refine ⟨fun h => ⟨?_, h.idlePacker, h.outBytes⟩, fun ⟨hout, hidle, hcount⟩ => ?_⟩
  · cases hp : s.phase with
    | count => exact h.before (.inl hp)
    | built => exact h.before (.inr (.inl hp))
    | coded => exact h.before (.inr (.inr hp))
    | hdr => exact h.hdr hp
    | tree => exact h.tree hp
    | payload => exact h.payload hp
    | done => exact h.done hp
    | error => trivial
  · exact {
      before := by rintro (hp | hp | hp) <;> exact (hp ▸ hout :)
      hdr := fun hp => (hp ▸ hout :)
      tree := fun hp => (hp ▸ hout :)
      payload := fun hp => (hp ▸ hout :)
      done := fun hp => (hp ▸ hout :)
      idlePacker := hidle
      outBytes := hcount }

/-! ### The commands -/

section
variable {s : State}

/-- Before HDR nothing has been emitted, and a command that emits nothing keeps it so. -/
theorem outputIsContainerPrefix_of_before {t : State} (ht : t.phase = .count ∨ t.phase = .built ∨ t.phase = .coded)
    (hem : emitted t = []) (hidle : PackerAtReset t) (hcount : CountsOutput t) : OutputIsContainerPrefix t := by
  refine outputIsContainerPrefix_iff.mpr ⟨?_, fun _ _ _ => hidle, hcount⟩
  rcases ht with hp | hp | hp <;> (rw [hp]; exact hem)

theorem outputIsContainerPrefix_of_error {t : State} (ht : t.phase = .error) (hcount : CountsOutput t) : OutputIsContainerPrefix t :=
  outputIsContainerPrefix_iff.mpr ⟨by rw [ht]; trivial, fun _ _ he => absurd ht he, hcount⟩

theorem resetState_output (s : State) : OutputIsContainerPrefix (resetState s) :=
  outputIsContainerPrefix_of_before (.inl rfl) rfl ⟨rfl, rfl, rfl, rfl⟩ rfl

variable (h : OutputIsContainerPrefix s)
include h

theorem OutputIsContainerPrefix.countsOutput : CountsOutput s := h.outBytes

/-- The invariant says nothing of the command latch, and of the host and OUTQ only which bytes have been emitted. -/
theorem OutputIsContainerPrefix.frame (busy : Bool) (cur : CmdWord) {outq : List Byte} {host : HostSide}
    (hem : host.drained ++ outq = emitted s) :
    OutputIsContainerPrefix { s with busy := busy, cur := cur, outq := outq, host := host } where
  before hp := hem.trans (h.before hp)
  hdr hp := hem.trans (h.hdr hp)
  tree hp := hem.trans (h.tree hp)
  payload hp := by
    obtain ⟨bs, hbs, hout, hrest⟩ := h.payload hp
    exact ⟨bs, hbs, hem.trans hout, hrest⟩
  done hp := by
    obtain ⟨bs, hbs, hout, hrest⟩ := h.done hp
    exact ⟨bs, hbs, hem.trans hout, hrest⟩
  idlePacker := h.idlePacker
  outBytes := h.outBytes.trans (congrArg (fun bytes => BitVec.ofNat 64 bytes.length) hem.symm)

theorem OutputIsContainerPrefix.finish : OutputIsContainerPrefix (finish s) := h.frame _ _ rfl

theorem OutputIsContainerPrefix.raise (e : ErrCode) : OutputIsContainerPrefix (raise e s) :=
  outputIsContainerPrefix_of_error rfl h.countsOutput

theorem OutputIsContainerPrefix.withAgenda (rest : List Turn) : OutputIsContainerPrefix (withAgenda rest s) := h.frame _ _ rfl

/-- A block of the container before the payload: its bytes go out and the next phase begins (R143 to R145). -/
theorem OutputIsContainerPrefix.emitBlock (xs : List Byte) {q : Phase}
    (hs : s.phase ≠ .payload ∧ s.phase ≠ .done ∧ s.phase ≠ .error)
    (hout : ∀ t : State, emitted t = emitted s ++ xs → t.tree = s.tree → PackerAtReset t → OutputIn q t) :
    OutputIsContainerPrefix { emitAll xs s with phase := q } := by
  obtain ⟨hpay, hdone, herr⟩ := hs
  have hidle : PackerAtReset { emitAll xs s with phase := q } := by
    rw [emitAll_eq]
    exact h.idlePacker hpay hdone herr
  exact outputIsContainerPrefix_iff.mpr
    ⟨hout _ (emitted_emitAll xs s) (by rw [emitAll_eq]) hidle, fun _ _ _ => hidle, h.countsOutput.emitAll xs⟩

theorem emitHdrEffect_output (hp : s.phase = .coded) : OutputIsContainerPrefix (emitHdrEffect s) := by
  refine h.emitBlock magic (by simp [hp]) fun t hem _ _ => ?_
  rw [h.before (.inr (.inr hp))] at hem
  exact hem

theorem emitTreeEffect_output (hp : s.phase = .hdr) : OutputIsContainerPrefix (emitTreeEffect s) := by
  refine h.emitBlock (treeBlock s.tree) (by simp [hp]) fun t hem htree _ => ?_
  rw [h.hdr hp, ← htree] at hem
  exact hem

/-- The separator ends the front of the container, and the payload begins with no byte encoded. -/
theorem emitSepEffect_output (hp : s.phase = .tree) : OutputIsContainerPrefix (emitSepEffect s) := by
  refine h.emitBlock separator (by simp [hp]) fun t hem htree ⟨hacc, hfill, hbits, hcount⟩ => ?_
  rw [h.tree hp, ← htree] at hem
  exact ⟨[], by simp, by simpa [streamOf, fullBytes] using hem, hacc, congrArg BitVec.toNat hfill, hbits, hcount⟩

/-- ENCODE appends its byte to the bytes encoded so far (R160, R161, R164). -/
theorem encodeByte_output {b : Byte} (hp : s.phase = .payload) (hb : tableGet s.freq b ≠ 0) :
    OutputIsContainerPrefix (encodeByte b s) := by
  obtain ⟨bs, hbs, hem, hacc, hfill, hbits, hcount⟩ := h.payload hp
  obtain ⟨hem', hacc', hfill'⟩ := encodeByte_holdsStream b ⟨hem, hacc, hfill⟩
  have hphase : (encodeByte b s).phase = .payload := (effectOf_phase (i := .encode b) (by simp) s).trans hp
  refine outputIsContainerPrefix_iff.mpr ⟨?_, fun hn => absurd hphase hn, h.countsOutput.encodeByte b⟩
  rw [hphase]
  refine ⟨bs ++ [b], ?_, ?_, ?_, ?_, ?_, ?_⟩
  · rw [encodeByte_frame]
    simpa [or_imp, forall_and] using ⟨hbs, hb⟩
  · rw [streamOf_encodeByte, hem', encodeByte_frame]
  · rw [streamOf_encodeByte]
    exact hacc'
  · rw [streamOf_encodeByte]
    exact hfill'
  · rw [streamOf_encodeByte, encodeByte_frame, streamOf_concat, List.length_append, length_codeBits, BitVec.ofNat_add, ← hbits]
    simp
  · rw [encodeByte_frame, List.length_append, BitVec.ofNat_add, ← hcount]
    rfl

/-- FLUSH completes the payload, and with it the container (R147, R162). -/
theorem flushEffect_output (hp : s.phase = .payload) : OutputIsContainerPrefix (flushEffect s) := by
  obtain ⟨bs, hbs, hem, hacc, hfill, hbits, hcount⟩ := h.payload hp
  have hem' := HoldsStream.emitted_flushEffect ⟨hem, hacc, hfill⟩
  have hphase : (flushEffect s).phase = .done := effectOf_phase (i := .flush) (by simp) s
  refine outputIsContainerPrefix_iff.mpr ⟨?_, fun _ hn => absurd hphase hn, h.countsOutput.flushEffect⟩
  rw [hphase]
  refine ⟨bs, ?_, ?_, ?_, ?_⟩
  · rw [flushEffect_frame]
    exact hbs
  · rw [hem', flushEffect_frame]
    rfl
  · rw [flushEffect_frame]
    exact hbits
  · rw [flushEffect_frame]
    exact hcount

/-- COUNT, BUILD and ASSIGN emit nothing. -/
theorem OutputIsContainerPrefix.silent {t : State} (hs : s.phase = .count ∨ s.phase = .built ∨ s.phase = .coded)
    (ht : t.phase = .count ∨ t.phase = .built ∨ t.phase = .coded) (hem : emitted t = emitted s)
    (hidle : PackerAtReset s → PackerAtReset t) (hcount : t.outBytes = s.outBytes) : OutputIsContainerPrefix t := by
  have hidle' : PackerAtReset s := h.idlePacker (by grind) (by grind) (by grind)
  refine outputIsContainerPrefix_of_before ht (hem.trans (h.before hs)) (hidle hidle') ?_
  rw [CountsOutput, hcount, hem]
  exact h.countsOutput

/-- Every command that completes keeps the output the beginning of one container. -/
theorem effectOf_output {i : Instr} (hc : i ≠ .clear) (he : commandError i s = none) : OutputIsContainerPrefix (effectOf i s) := by
  obtain ⟨hlegal, hown⟩ := commandError_eq_none.mp he
  cases i with
  | nop => exact h
  | clear => exact absurd rfl hc
  | count b =>
    have hp : s.phase = .count := by simpa [legalIn] using hlegal
    exact h.silent (.inl hp) (.inl hp) rfl id rfl
  | build =>
    have hp : s.phase = .count := by simpa [legalIn] using hlegal
    exact h.silent (.inl hp) (.inr (.inl rfl)) rfl id rfl
  | assign =>
    have hp : s.phase = .built := by simpa [legalIn] using hlegal
    exact h.silent (.inr (.inl hp)) (.inr (.inr rfl)) rfl id rfl
  | emitHdr => exact emitHdrEffect_output h (by simpa [legalIn] using hlegal)
  | emitTree => exact emitTreeEffect_output h (by simpa [legalIn] using hlegal)
  | emitSep => exact emitSepEffect_output h (by simpa [legalIn] using hlegal)
  | encode b => exact encodeByte_output h (by simpa [legalIn] using hlegal) (by simpa [ownError] using hown)
  | flush => exact flushEffect_output h (by simpa [legalIn] using hlegal)
  | abort => exact nomatch hown

theorem engineStep_output {t : State} (ht : engineStep s = .next t) : OutputIsContainerPrefix t := by
  rcases engineStep_cases ht with ⟨-, rfl⟩ | ⟨-, -, rfl⟩ | ⟨-, -, rfl⟩ | ⟨-, i, e, -, -, -, rfl⟩ | ⟨-, i, -, hc, he, rfl⟩
  · exact resetState_output s
  · exact h.finish
  · exact h.raise _
  · exact h.raise e
  · exact (effectOf_output h hc he).finish

theorem hostStep_output (turn : Turn) : OutputIsContainerPrefix (hostStep turn s) := by
  by_cases hr : turn = .reset
  · subst hr
    exact resetState_output s
  · have hem := hostStep_emitted hr s
    rw [hostStep_eq turn s hr] at hem ⊢
    exact h.frame _ _ hem

end

/-- Settles O57: the engine's step, the host's steps and the agenda each keep the emitted bytes the beginning of one container. -/
theorem everyStepKeepsOutputAContainerPrefix : Obligations.EveryStepKeepsOutputAContainerPrefix := by
  intro s t h hstep
  rcases step_cases hstep with ⟨-, ht⟩ | ⟨rest, -, -, ht⟩ | ⟨-, rfl | ⟨rest, -, rfl⟩⟩ | ⟨turn, rest, -, -, -, rfl⟩
  · exact engineStep_output h ht
  · exact engineStep_output (h.withAgenda rest) ht
  · exact h
  · exact h.withAgenda rest
  · exact hostStep_output (h.withAgenda rest) turn

end Sys2Proof.Machine
end

section
/-! PROOFS. The commands ENCODE and FLUSH (spec/44_bitpacker.md R161, R162). -/

namespace Sys2Proof.Machine

section
variable {s : State}

/-! ### The dispatch -/

theorem exec_encode_of_present {b : Byte} (hp : s.phase = .payload) (hb : tableGet s.freq b ≠ 0) :
    exec (.encode b) s = .next (finish (encodeByte b s)) :=
  exec_of_completes (i := .encode b) (by simp) (by simp [legalIn, hp]) (if_neg hb)

theorem exec_flush_of_payload (hp : s.phase = .payload) : exec .flush s = .next (finish (flushEffect s)) :=
  exec_of_completes (i := .flush) (by simp) (by simp [legalIn, hp]) rfl

theorem encodeByte_phase (b : Byte) (s : State) : (encodeByte b s).phase = s.phase := effectOf_phase (i := .encode b) (by simp) s

theorem encodeByte_host (b : Byte) (s : State) : (encodeByte b s).host = s.host := by rw [encodeByte_frame]

theorem flushEffect_host (s : State) : (flushEffect s).host = s.host := by rw [flushEffect_frame]

/-! ### FLUSH -/

theorem flushEffect_of_fill_eq_zero (h : s.fill = 0) : flushEffect s = { s with phase := .done } := if_pos h

theorem flushEffect_of_fill_ne_zero (h : s.fill ≠ 0) :
    flushEffect s = { emit s.acc s with acc := 0, fill := 0, phase := .done } := if_neg h

/-- Settles O26: the effect of FLUSH in both cases of FILL, the clear bits of R32, the wrong phases as the dispatch refuses them, and the
malformed word. -/
theorem flushEmitsThePartialByte : Obligations.FlushEmitsThePartialByte := by
  refine ⟨fun s hp hfill => ?_, fun s hp hfill => ?_, fun s h => (ushiftRight_eq_zero_iff _ _).mp h.packer,
    fun _ hp => exec_of_wrongPhase (i := .flush) hp,
    fun _ hp hopc hw => engineStep_of_wrong_plain_word hopc (by decide) (by decide) hw hp, rfl⟩
  · rw [exec_flush_of_payload hp, flushEffect_of_fill_ne_zero hfill]
    rfl
  · rw [exec_flush_of_payload hp, flushEffect_of_fill_eq_zero hfill]
    rfl

/-! ### The bits of a stream, read back from the packer -/

theorem length_heldBits (s : State) : (heldBits s).length = s.fill.toNat := by simp [heldBits]

/-- A list is its entries in order. -/
theorem map_getD_range (bits : List Bool) : (List.range bits.length).map (fun i => bits.getD i false) = bits :=
  List.ext_getElem (by simp) fun i _ h => by simp [List.getElem?_eq_getElem h]

/-- Eight entries at a time are all entries. -/
theorem flatMap_range_eight (g : Nat → Bool) (q : Nat) :
    ((List.range q).flatMap fun j => (List.range 8).map fun k => g (8 * j + k)) = (List.range (8 * q)).map g := by
  induction q with
  | zero => rfl
  | succ q ih =>
    rw [List.range_succ (n := q), List.flatMap_append, ih, Nat.mul_succ, List.range_add, List.map_append, List.map_map]
    simp [Function.comp_def]

theorem byteBits_payloadByte (bits : List Bool) (j : Nat) :
    byteBits (payloadByte bits j) = (List.range 8).map fun k => bits.getD (8 * j + k) false :=
  List.map_congr_left fun _ hk => payloadByte_getLsbD bits j (List.mem_range.mp hk)

theorem flatMap_byteBits_fullBytes (bits : List Bool) :
    (fullBytes bits).flatMap byteBits = (List.range (8 * (bits.length / 8))).map fun i => bits.getD i false := by
  simp only [fullBytes, List.flatMap_map, byteBits_payloadByte]
  exact flatMap_range_eight (fun i => bits.getD i false) _

theorem HoldsStream.heldBits_eq {front : List Byte} {bits : List Bool} (h : HoldsStream front bits s.fill.toNat s) :
    heldBits s = (List.range (bits.length % 8)).map fun k => bits.getD (8 * (bits.length / 8) + k) false := by
  rw [heldBits, h.fill, h.acc]
  refine List.map_congr_left fun k hk => payloadByte_getLsbD _ _ ?_
  have := List.mem_range.mp hk
  omega

/-- The bits of the full bytes and the bits held are the stream (R160, R161). -/
theorem HoldsStream.bits_eq {front : List Byte} {bits : List Bool} (h : HoldsStream front bits s.fill.toNat s) :
    (fullBytes bits).flatMap byteBits ++ heldBits s = bits := by
  have hrange := List.range_add (n := 8 * (bits.length / 8)) (m := bits.length % 8)
  rw [Nat.div_add_mod] at hrange
  calc (fullBytes bits).flatMap byteBits ++ heldBits s
      = (List.range bits.length).map fun i => bits.getD i false := by
        rw [flatMap_byteBits_fullBytes, h.heldBits_eq, hrange, List.map_append, List.map_map]
        rfl
    _ = bits := map_getD_range bits

/-- A packer that is clear above FILL holds the stream of its held bits, with no byte of it emitted yet (R32). -/
theorem holdsStream_heldBits (h : s.acc >>> s.fill.toNat = 0#8) : HoldsStream (emitted s) (heldBits s) s.fill.toNat s := by
  have hlen := length_heldBits s
  have hdiv : (heldBits s).length / 8 = 0 := by omega
  refine ⟨?_, ?_, by omega⟩
  · rw [fullBytes, hdiv]
    exact (List.append_nil _).symm
  · rw [hdiv]
    refine BitVec.eq_of_getLsbD_eq fun k hk => ?_
    rw [payloadByte_getLsbD _ _ hk, Nat.mul_zero, Nat.zero_add]
    by_cases hkf : k < s.fill.toNat
    · simp [heldBits, hkf]
    · rw [List.getD_eq_default _ _ (by omega), (ushiftRight_eq_zero_iff _ _).mp h k (by omega)]

/-! ### The emitted bytes -/

/-- A step that leaves the host alone emits what it appends to OUTQ. -/
theorem outq_of_emitted {t : State} {out : List Byte} (hhost : t.host = s.host) (h : emitted t = emitted s ++ out) :
    t.outq = s.outq ++ out := by
  rw [emitted, emitted, hhost, List.append_assoc] at h
  exact List.append_cancel_left h

/-- The packing loop counts in OUT_BYTES the bytes it appends to OUTQ (R56, R161). -/
theorem packLoop_outBytes (fuel : Nat) (v : CodeWord) (n f : Nat) (s : State) : ∃ out : List Byte,
    (packLoop fuel v n f s).outq = s.outq ++ out ∧
      (packLoop fuel v n f s).outBytes = s.outBytes + BitVec.ofNat 64 out.length := by
  induction fuel generalizing v n f s with
  | zero => exact ⟨[], by simp [packLoop]⟩
  | succ m ih =>
    rw [packLoop]
    split
    · exact ⟨[], by simp⟩
    · dsimp only
      generalize min n (8 - f) = k
      generalize s.acc ||| placeBits v k f = acc
      split
      · obtain ⟨out, hq, hcount⟩ := ih (v >>> k) (n - k) 0 { emit acc s with acc := 0 }
        refine ⟨acc :: out, hq.trans (List.append_assoc ..), hcount.trans ?_⟩
        rw [List.length_cons, Nat.add_comm, BitVec.ofNat_add, ← BitVec.add_assoc]
        rfl
      · exact ih (v >>> k) (n - k) (f + k) { s with acc := acc }

theorem encodeByte_outBytes {b : Byte} {out : List Byte} (h : (encodeByte b s).outq = s.outq ++ out) :
    (encodeByte b s).outBytes = s.outBytes + BitVec.ofNat 64 out.length := by
  obtain ⟨out', hq, hcount⟩ := packLoop_outBytes (tableGet s.codeLen b).toNat (tableGet s.codeVal b) (tableGet s.codeLen b).toNat
    s.fill.toNat { s with payloadBits := s.payloadBits + (tableGet s.codeLen b).setWidth 64, encCount := s.encCount + 1 }
  obtain rfl : out = out' := List.append_cancel_left (h.symm.trans hq)
  exact hcount

/-! ### ENCODE -/

/-- ENCODE appends the code of its byte to any stream the packer holds (R161). -/
theorem HoldsStream.encodeByte {front : List Byte} {bits : List Bool} (b : Byte) (h : HoldsStream front bits s.fill.toNat s) :
    HoldsStream front (bits ++ codeBits (tableGet s.codeVal b) (tableGet s.codeLen b).toNat) (encodeByte b s).fill.toNat
      (encodeByte b s) := by
  obtain ⟨hem, hacc, hfill⟩ := h
  exact packLoop_holdsStream _ le_rfl ⟨hem, hacc, hfill⟩

end

/-- Settles O25: the packer holds the stream of its held bits, ENCODE appends its code to that stream, and the stream is the bits of the
bytes emitted and the bits held at the end. The errors are as the dispatch raises them. -/
theorem encodeAppendsTheCode : Obligations.EncodeAppendsTheCode := by
  refine ⟨fun b s hp hb hacc => ?_, fun b s hp hb => ⟨_, exec_encode_of_present hp hb, (encodeByte_phase b s).trans hp⟩,
    fun _ _ => exec_encode_of_absent, fun b _ hp => exec_of_wrongPhase (i := .encode b) hp, fun s hp _ hrsv => ?_, fun b => ?_⟩
  · have h := (holdsStream_heldBits hacc).encodeByte b
    have hlen : (heldBits s ++ codeBits (tableGet s.codeVal b) (tableGet s.codeLen b).toNat).length =
        s.fill.toNat + (tableGet s.codeLen b).toNat := by rw [List.length_append, length_heldBits, length_codeBits]
    have hq := outq_of_emitted (encodeByte_host b s) h.emitted
    refine ⟨_, finish (encodeByte b s), exec_encode_of_present hp hb, ?_, ?_, ?_, h.bits_eq, encodeByte_clear b hacc⟩
    · rw [← encodeByte_outBytes hq, ← hq]
      exact congrArg finish (encodeByte_frame b s)
    · rw [fullBytes, List.length_map, List.length_range, hlen]
    · rw [← hlen]
      exact h.fill
  · exact (engineStep_of_malformed (.inr (.inl hrsv))).trans (execIllegal_of_ne_error hp)
  · exact (encode_encode_eq b).trans (BitVec.append_assoc (x₁ := 0x8#4) (x₂ := 0#20)).symm

end Sys2Proof.Machine
end

section
/-! PROOFS. The payload of a list of encoded bytes: its bytes and its size (spec/44_bitpacker.md R160, R164). -/

namespace Sys2Proof.Machine

/-! ### The packing law -/

/-- From a packer that holds the stream of `done`, ENCODE of each byte of `bs` completes and appends their codes (R160, R161). -/
theorem runInstrs_encode {front done bs : List Byte} {s : State} (hp : s.phase = .payload) (hbs : ∀ b ∈ bs, tableGet s.freq b ≠ 0)
    (h : HoldsStream front (streamOf s done) s.fill.toNat s) :
    ∃ t, runInstrs (bs.map .encode) s = .next t ∧ t.phase = .payload ∧ t.host = s.host ∧
      HoldsStream front (streamOf s (done ++ bs)) t.fill.toNat t := by
  induction bs generalizing done s with
  | nil => exact ⟨s, rfl, hp, rfl, by rwa [List.append_nil]⟩
  | cons b bs ih =>
    obtain ⟨hb, hbs⟩ := List.forall_mem_cons.mp hbs
    have hstream : ∀ cs, streamOf (finish (encodeByte b s)) cs = streamOf s cs := streamOf_encodeByte b s
    obtain ⟨hem, hacc, hfill⟩ := encodeByte_holdsStream b h
    rw [← hstream] at hem hacc hfill
    obtain ⟨t, hrun, htp, hhost, ht⟩ := ih (s := finish (encodeByte b s)) ((encodeByte_phase b s).trans hp)
      (by rw [finish_freq, encodeByte_frame]; exact hbs) ⟨hem, hacc, hfill⟩
    rw [hstream, List.append_assoc] at ht
    refine ⟨t, ?_, htp, hhost.trans (encodeByte_host b s), ht⟩
    rw [List.map_cons, runInstrs, exec_encode_of_present hp hb]
    exact hrun

/-- Settles O53: the empty packer holds the empty stream, the ENCODE commands append their codes to it, and FLUSH completes its payload. -/
theorem encodeSequenceObeysPackingLaw : Obligations.EncodeSequenceObeysPackingLaw := by
  intro s bs hp hacc hfill hbs
  have hstart : HoldsStream (emitted s) (streamOf s []) s.fill.toNat s :=
    { emitted := by simp [streamOf, fullBytes]
      acc := hacc
      fill := by rw [hfill]; rfl }
  obtain ⟨t, hrun, htp, hhost, ht⟩ := runInstrs_encode hp hbs hstart
  exact ⟨t, finish (flushEffect t), hrun, outq_of_emitted hhost ht.emitted, exec_flush_of_payload htp,
    outq_of_emitted (t := finish (flushEffect t)) ((flushEffect_host t).trans hhost) ht.emitted_flushEffect⟩

/-! ### The size of the payload -/

/-- A sum over a list, taken byte value by byte value with each value's count. -/
theorem sum_map_eq_sum_count (g : Byte → Nat) (bs : List Byte) : (bs.map g).sum = (allBytes.map fun b => g b * bs.count b).sum := by
  rw [Finset.sum_list_map_count, ← List.sum_toFinset _ allBytes_nodup]
  refine Finset.sum_subset_zero_on_sdiff (fun b _ => by simp) (fun b hb => ?_) fun b _ => by rw [smul_eq_mul, mul_comm]
  have hb' : b ∉ bs := by simpa using hb
  rw [List.count_eq_zero_of_not_mem hb', mul_zero]

theorem length_streamOf (s : State) (bs : List Byte) : (streamOf s bs).length = (bs.map fun b => (tableGet s.codeLen b).toNat).sum := by
  simp [streamOf, List.length_flatMap, length_codeBits]

/-- A tree costs its leaves' depths times their frequencies, wherever the depths are read from (R120). -/
theorem costFrom_eq_sum_leafPairs {len : Byte → Nat} {t : Tree} {d : Nat} (h : ∀ p ∈ t.paths, len p.1 = d + p.2.length) :
    t.costFrom d = (t.leafPairs.map fun p => len p.1 * p.2.toNat).sum := by
  induction t generalizing d with
  | leaf b f =>
    have hb : len b = d := h (b, []) (List.mem_singleton_self _)
    simp [Tree.costFrom, Tree.leafPairs, hb]
  | internal f a l r ihl ihr =>
    have hside : ∀ {x : Bool} {p : Byte × List Bool}, (p.1, x :: p.2) ∈ (Tree.internal f a l r).paths →
        len p.1 = d + 1 + p.2.length := fun hp => by
      rw [h _ hp, List.length_cons]
      omega
    rw [Tree.costFrom, Tree.leafPairs, List.map_append, List.sum_append,
      ihl fun p hp => hside (List.mem_append_left _ (List.mem_map_of_mem hp)),
      ihr fun p hp => hside (List.mem_append_right _ (List.mem_map_of_mem hp))]

/-- A sum weighted by frequency needs the bytes that occur only. -/
theorem sum_occurring_mul (freq : ByteTable Word64) (g : Byte → Nat) :
    ((occurring freq).map fun p => g p.1 * p.2.toNat).sum = (allBytes.map fun b => g b * (tableGet freq b).toNat).sum := by
  unfold occurring
  induction allBytes with
  | nil => rfl
  | cons b bs ih =>
    rw [List.filter_cons, List.map_cons, List.sum_cons, ← ih]
    by_cases h : tableGet freq b = 0#64 <;> simp [h]

section
variable {s : State} {t : Tree} (h : RegistersAgree s)
include h

/-- CODE_LEN of a leaf's byte is the leaf's depth (R131). -/
theorem RegistersAgree.codeLen_of_path (hv : s.codesV = true) (ht : s.tree = some t) :
    ∀ p ∈ t.paths, (tableGet s.codeLen p.1).toNat = p.2.length := fun p hp => by
  have hfreq := (h.mem_paths_bytes ht).mp (List.mem_map_of_mem hp)
  obtain ⟨u, path, hu, hpath, hlen, -⟩ := h.exists_path (present_iff.mpr ⟨hv, hfreq⟩)
  obtain rfl : t = u := Option.some.inj (ht.symm.trans hu)
  rw [hlen, ← List.inj_on_of_nodup_map (h.paths_bytes_nodup ht) hpath hp rfl]

/-- The tree's cost, read from the registers (R120, R164). -/
theorem RegistersAgree.costFrom_zero_eq (hv : s.codesV = true) (ht : s.tree = some t) :
    t.costFrom 0 = (allBytes.map fun b => (tableGet s.codeLen b).toNat * (tableGet s.freq b).toNat).sum := by
  rw [← sum_occurring_mul s.freq fun b => (tableGet s.codeLen b).toNat]
  calc t.costFrom 0 = (t.leafPairs.map fun p => (tableGet s.codeLen p.1).toNat * p.2.toNat).sum :=
        costFrom_eq_sum_leafPairs (len := fun b => (tableGet s.codeLen b).toNat) fun p hp => by
          rw [h.codeLen_of_path hv ht p hp, Nat.zero_add]
    _ = _ := ((h.treeFor ht).leaves.map _).sum_eq

end

/-- Settles O54: the stream's length is summed byte value by byte value, and CODE_LEN is the depth in the tree. -/
theorem samePassesFixPayloadSize : Obligations.SamePassesFixPayloadSize := by
  intro s bs t h hv ht hcount
  have hsum : (streamOf s bs).length = (allBytes.map fun b => (tableGet s.codeLen b).toNat * (tableGet s.freq b).toNat).sum := by
    rw [length_streamOf, sum_map_eq_sum_count]
    simp only [hcount]
  exact ⟨hsum, hsum.trans (h.costFrom_zero_eq hv ht).symm, by simp [payload]⟩

end Sys2Proof.Machine
end

section
/-! PROOFS. The commands NOP, CLEAR and ABORT (spec/45_control.md R180 to R182). -/

namespace Sys2Proof.Machine

section
variable {s : State}

/-! ### The dispatch -/

/-- In ERROR every command but CLEAR is discarded (R209). -/
theorem exec_of_error {i : Instr} (hc : i ≠ .clear) (hp : s.phase = .error) : exec i s = .next (finish s) := by
  rw [exec_eq_runCommand hc]
  exact runCommand_of_error hp

/-- In ERROR a word with the opcode of a command without an operand that is not that command's word is discarded (R209). -/
theorem engineStep_of_wrong_plain_word_of_error {opc : BitVec 4} (hopc : s.cur.extractLsb' 28 4 = opc) (hcount : opc ≠ 0x2)
    (hencode : opc ≠ 0x8) (hw : s.cur ≠ opc ++ 0#28) (hp : s.phase = .error) : engineStep s = .next (finish s) :=
  (engineStep_of_malformed (malformed_of_plain_opcode hopc hcount hencode hw)).trans (execIllegal_of_error hp)

/-! ### The three commands -/

/-- NOP completes with no effect, discarded in ERROR and legal in every other phase (R180). -/
theorem exec_nop (s : State) : exec .nop s = .next (finish s) := by
  by_cases hp : s.phase = .error
  · exact exec_of_error (by decide) hp
  · exact exec_of_completes (i := .nop) (by decide) (by simpa [legalIn] using hp) rfl

theorem exec_clear (s : State) : exec .clear s = .next (resetState s) := rfl

theorem resetState_huffReset (s : State) : HuffReset (resetState s) := rfl

/-- No field of STATUS is among those CLEAR keeps. -/
theorem statusReg_resetState (s : State) : statusReg (resetState s) = 0 :=
  calc statusReg (resetState s) = statusReg State.reset := rfl
    _ = 0 := rfl

/-- ABORT is legal outside ERROR, and its own error is always met (R182). -/
theorem exec_abort_of_ne_error (hp : s.phase ≠ .error) : exec .abort s = .next (raise .ioFailure s) := by
  rw [exec_eq_runCommand (by decide)]
  exact runCommand_of_raises hp (by simp [commandError, legalIn, ownError, hp])

end

/-- Settles O16: NOP's effect is none in both cases of ERROR, and another word with its opcode is malformed. -/
theorem nopChangesNothing : Obligations.NopChangesNothing :=
  ⟨exec_nop, rfl, fun _ hp hopc hw => engineStep_of_wrong_plain_word hopc (by decide) (by decide) hw hp⟩

/-- Settles O17: CLEAR answers the reset state whatever the phase, and another word with its opcode is malformed. -/
theorem clearRestoresReset : Obligations.ClearRestoresReset :=
  ⟨fun s => ⟨_, exec_clear s, resetState_huffReset s, statusReg_resetState s, rfl, rfl⟩, rfl,
    fun _ hp hopc hw => engineStep_of_wrong_plain_word hopc (by decide) (by decide) hw hp,
    fun _ hp hopc hw => engineStep_of_wrong_plain_word_of_error hopc (by decide) (by decide) hw hp⟩

/-- Settles O27: outside ERROR ABORT raises its own error, in ERROR it is discarded, and another word with its opcode is malformed. -/
theorem abortReportsIoFailure : Obligations.AbortReportsIoFailure := by
  refine ⟨fun _ => exec_abort_of_ne_error, fun s t hp ht => ?_, fun _ => exec_of_error (i := .abort) (by decide),
    fun _ hp hopc hw => engineStep_of_wrong_plain_word hopc (by decide) (by decide) hw hp, rfl⟩
  rw [exec_abort_of_ne_error hp] at ht
  cases ht
  exact ⟨rfl, rfl, rfl⟩

end Sys2Proof.Machine
end

section
/-! PROOFS. The error entry, its order of priority, and the error state (spec/60_exceptions.md R200 to R220). -/

namespace Sys2Proof.Machine

/-! ### Which words the decoder rejects -/

theorem commandOf_of_defined {opc : Nat} (h : opc < 0xB) (arg : Byte) : ∃ i, commandOf opc arg = .instr i := by
  interval_cases opc <;> exact ⟨_, rfl⟩

/-- A word that passes the three format checks decodes, so a rejected word fails one of them (R85, R203). -/
theorem malformed_of_reject {w : CmdWord} {r : Reject} (h : decode w = .reject r) : Malformed w := by
  by_cases hopc : (fieldsOf w).opc.toNat < 0xB
  · by_cases hrsv : (fieldsOf w).rsv = 0
    · by_cases harg : (fieldsOf w).argAllowed = true
      · obtain ⟨i, hi⟩ := commandOf_of_defined hopc (fieldsOf w).arg
        simp [decode, Fields.opcodeDefined, Fields.reservedZero, hopc, hrsv, harg, hi] at h
      · exact .inr (.inr (by simpa [Fields.argAllowed, Fields.takesByte, fieldsOf, and_assoc] using harg))
    · exact .inr (.inl hrsv)
  · exact .inl (not_lt.mp hopc)

theorem exists_decode_of_not_malformed {w : CmdWord} (h : ¬ Malformed w) : ∃ i, decode w = .instr i := by
  cases hd : decode w with
  | instr i => exact ⟨i, rfl⟩
  | reject r => exact absurd (malformed_of_reject hd) h

section
variable {s t : State} {i : Instr} {e : ErrCode}

/-! ### The error a command raises -/

theorem legalIn_of_not_wrongPhase {p : Phase} (h : ¬ WrongPhase i p) (hp : p ≠ .error) : legalIn i p = true := by
  cases i with
  | clear => rfl
  | nop | abort => simpa [legalIn] using hp
  | _ => simpa [legalIn, WrongPhase] using h

/-- The phase is checked before the command's own condition (R208). -/
theorem commandError_cases (h : commandError i s = some e) :
    (legalIn i s.phase = false ∧ e = .sequenceError) ∨ (legalIn i s.phase = true ∧ ownError i s = some e) := by
  unfold commandError at h
  split at h
  · exact .inr ⟨‹_›, h⟩
  · cases h
    exact .inl ⟨Bool.eq_false_iff.mpr ‹_›, rfl⟩

/-- The four commands with an error of their own, each with its condition and its code (R116, R182, R206, R207). -/
theorem ownError_cases (h : ownError i s = some e) :
    (i = .build ∧ s.total = 0 ∧ e = .emptyInput) ∨ (∃ b, i = .encode b ∧ tableGet s.freq b = 0 ∧ e = .symbolAbsent) ∨
      (∃ b, i = .count b ∧ s.total = BitVec.allOnes 64 ∧ e = .countOverflow) ∨ (i = .abort ∧ e = .ioFailure) := by
  cases i with
  | build =>
    obtain ⟨ht, rfl⟩ : s.total = 0 ∧ ErrCode.emptyInput = e := by simpa [ownError] using h
    exact .inl ⟨rfl, ht, rfl⟩
  | encode b =>
    obtain ⟨hb, rfl⟩ : tableGet s.freq b = 0 ∧ ErrCode.symbolAbsent = e := by simpa [ownError] using h
    exact .inr (.inl ⟨b, rfl, hb, rfl⟩)
  | count b =>
    obtain ⟨ht, rfl⟩ : s.total = BitVec.allOnes 64 ∧ ErrCode.countOverflow = e := by simpa [ownError] using h
    exact .inr (.inr (.inl ⟨b, rfl, ht, rfl⟩))
  | abort =>
    cases h
    exact .inr (.inr (.inr ⟨rfl, rfl⟩))
  | _ => cases h

/-! ### The engine's step into ERROR -/

theorem phaseAfter_ne_error {p : Phase} (hp : p ≠ .error) : phaseAfter i p ≠ .error := by
  cases i with
  | build | assign | emitHdr | emitTree | emitSep | flush => exact Phase.noConfusion
  | _ => exact hp

/-- Only an error entry leads into ERROR: of a word that is no command, or of a command that raises an error (R203, R205). -/
theorem engineStep_enters_error (ht : engineStep s = .next t) (hs : s.phase ≠ .error) (herr : t.phase = .error) :
    ∃ e, t = raise e s ∧ (((∃ r, decode s.cur = .reject r) ∧ e = .illegalCommand) ∨
      ∃ i, decode s.cur = .instr i ∧ commandError i s = some e) := by
  rcases engineStep_cases ht with ⟨-, rfl⟩ | ⟨-, hp, -⟩ | ⟨-, hr, rfl⟩ | ⟨-, i, e, hd, -, he, rfl⟩ | ⟨-, i, -, hc, -, rfl⟩
  · cases herr
  · exact absurd hp hs
  · exact ⟨_, rfl, .inl ⟨hr, rfl⟩⟩
  · exact ⟨e, rfl, .inr ⟨i, hd, he⟩⟩
  · rw [finish_phase, effectOf_phase hc] at herr
    exact absurd herr (phaseAfter_ne_error hs)

/-! ### Steps from ERROR -/

/-- In ERROR the engine runs CLEAR and discards every other word (R209, R210). -/
theorem engineStep_from_error (ht : engineStep s = .next t) (hp : s.phase = .error) :
    (s.cur = encode .clear ∧ t = resetState s) ∨ (s.cur ≠ encode .clear ∧ t = finish s) := by
  rcases engineStep_cases ht with ⟨hd, rfl⟩ | ⟨hd, -, rfl⟩ | ⟨hn, -⟩ | ⟨hn, -⟩ | ⟨hn, -⟩
  · exact .inl ⟨eq_encode_of_decode hd, rfl⟩
  · exact .inr ⟨fun hcur => hd (hcur ▸ decode_encode .clear), rfl⟩
  all_goals exact absurd hp hn

/-- The registers that tell of an error: a step from ERROR that is neither CLEAR nor reset keeps them (R24, R25). -/
def SameError (s t : State) : Prop := t.phase = s.phase ∧ t.err = s.err ∧ t.errInfo = s.errInfo

theorem HuffReset.phase (h : HuffReset t) : t.phase = .count := by
  rw [h]
  rfl

theorem engineStep_clears_or_sameError (ht : engineStep s = .next t) (hp : s.phase = .error) :
    (s.cur = encode .clear ∧ HuffReset t) ∨ SameError s t := by
  rcases engineStep_from_error ht hp with ⟨hcur, rfl⟩ | ⟨-, rfl⟩
  · exact .inl ⟨hcur, resetState_huffReset s⟩
  · exact .inr ⟨rfl, rfl, rfl⟩

theorem hostStep_sameError {turn : Turn} (hr : turn ≠ .reset) (s : State) : SameError s (hostStep turn s) := by
  rw [hostStep_eq turn s hr]
  exact ⟨rfl, rfl, rfl⟩

/-- CLEAR and reset give the reset state, and no other turn, idle or held ones included, touches the error's registers (R209, R210). -/
theorem step_resets_or_sameError (hstep : step s = .next t) (hp : s.phase = .error) :
    (((s.busy = true ∧ s.cur = encode .clear) ∨ s.host.agenda.head? = some .reset) ∧ HuffReset t) ∨ SameError s t := by
  rcases step_cases hstep with ⟨hb, ht⟩ | ⟨rest, -, hb, ht⟩ | ⟨-, rfl | ⟨rest, -, rfl⟩⟩ | ⟨turn, rest, ha, -, -, rfl⟩
  · exact (engineStep_clears_or_sameError ht hp).imp_left fun ⟨hcur, hreset⟩ => ⟨.inl ⟨hb, hcur⟩, hreset⟩
  · exact (engineStep_clears_or_sameError ht hp).imp_left fun ⟨hcur, hreset⟩ => ⟨.inl ⟨hb, hcur⟩, hreset⟩
  · exact .inr ⟨rfl, rfl, rfl⟩
  · exact .inr ⟨rfl, rfl, rfl⟩
  · by_cases hr : turn = .reset
    · subst hr
      exact .inl ⟨.inr (by simp [ha]), resetState_huffReset _⟩
    · exact .inr (hostStep_sameError hr (withAgenda rest s))

end

/-! ### The statements -/

/-- Settles O3: the decoder rejects exactly the malformed words. -/
theorem malformedWordsAreIllegal : Obligations.MalformedWordsAreIllegal := by
  refine fun s hp => ⟨fun hm => (engineStep_of_malformed hm).trans (execIllegal_of_ne_error hp), fun hm => ?_⟩
  obtain ⟨i, hd⟩ := exists_decode_of_not_malformed hm
  exact ⟨i, hd, by simp [engineStep, fetchWord, hd]⟩

/-- Settles O9: the step is the error entry of a rejected word or of a command's error, and neither code is 0. -/
theorem errorEntryIsPrecise : Obligations.ErrorEntryIsPrecise := by
  intro s t ht hs herr
  obtain ⟨e, rfl, hcause⟩ := engineStep_enters_error ht hs herr
  refine ⟨⟨e, ?_, rfl⟩, rfl⟩
  rcases hcause with ⟨-, rfl⟩ | ⟨i, -, he⟩
  · exact ErrCode.noConfusion
  · exact commandError_ne_none he

/-- Settles O10, as the dispatch raises it. -/
theorem wrongPhaseIsSequenceError : Obligations.WrongPhaseIsSequenceError := fun _ _ hp hw => exec_of_wrongPhase hw hp

/-- Settles O11: the error entry's cause, read off the word, the phase and the command's own condition in turn. -/
theorem errorsFollowPriority : Obligations.ErrorsFollowPriority := by
  intro s t ht hs herr
  obtain ⟨e, rfl, ⟨⟨r, hr⟩, rfl⟩ | ⟨j, hd, he⟩⟩ := engineStep_enters_error ht hs herr
  · have hnone : ∀ i, decode s.cur ≠ .instr i := fun i hi => nomatch hr.symm.trans hi
    exact ⟨fun _ => rfl, fun i hi => absurd hi (hnone i), fun i hi => absurd hi (hnone i)⟩
  · refine ⟨fun hm => ?_, fun i hi hw => ?_, fun i hi hw => ?_⟩
    · obtain ⟨r, hr⟩ := decode_of_malformed hm
      exact nomatch hd.symm.trans hr
    all_goals obtain rfl : j = i := Decoded.instr.inj (hd.symm.trans hi)
    · rcases commandError_cases he with ⟨-, rfl⟩ | ⟨hlegal, -⟩
      · rfl
      · exact absurd (legalIn_of_wrongPhase hw) (by simp [hlegal])
    · rcases commandError_cases he with ⟨hillegal, -⟩ | ⟨-, hown⟩
      · exact absurd (legalIn_of_not_wrongPhase hw hs) (by simp [hillegal])
      · exact ownError_cases hown

/-- Settles O12: the engine's step from ERROR on a word that is not CLEAR's. -/
theorem errorStateDiscardsWords : Obligations.ErrorStateDiscardsWords := by
  intro s hp hcur
  obtain ⟨t, ht, -⟩ := engineStep_next s
  rcases engineStep_from_error ht hp with ⟨hclear, -⟩ | ⟨-, rfl⟩
  · exact absurd hclear hcur
  · exact ht

/-- Settles O13: a step from ERROR ends in the reset state, which is outside ERROR, or keeps the error's registers. -/
theorem onlyClearAndResetLeaveError : Obligations.OnlyClearAndResetLeaveError := by
  intro s t hstep hp
  rcases step_resets_or_sameError hstep hp with ⟨hcause, hreset⟩ | ⟨hphase, herr, hinfo⟩
  · exact ⟨fun _ => ⟨hcause, hreset⟩, fun he => nomatch hreset.phase.symm.trans he⟩
  · exact ⟨fun hn => absurd (hphase.trans hp) hn, fun _ => ⟨herr, hinfo⟩⟩

/-- Settles O15: EMPTY_INPUT is BUILD's own error, so BUILD was legal, and in COUNT nothing has been emitted. -/
theorem emptyInputPrecedesOutput : Obligations.EmptyInputPrecedesOutput := by
  intro s t h ht hs herr hempty
  obtain ⟨e, rfl, ⟨-, rfl⟩ | ⟨i, hd, he⟩⟩ := engineStep_enters_error ht hs herr
  · cases hempty
  obtain rfl : e = .emptyInput := hempty
  rcases commandError_cases he with ⟨-, hseq⟩ | ⟨hlegal, hown⟩
  · cases hseq
  rcases ownError_cases hown with ⟨rfl, -, -⟩ | ⟨_, _, _, habsent⟩ | ⟨_, _, _, hoverflow⟩ | ⟨_, hio⟩
  · have hp : s.phase = .count := by simpa [legalIn] using hlegal
    exact ⟨eq_encode_of_decode hd, h.before (.inl hp)⟩
  · cases habsent
  · cases hoverflow
  · cases hio

end Sys2Proof.Machine
end

section
/-! PROOFS. Reset and the end of a run (spec/70_reset_and_hazards.md R230, R231, R235). -/

namespace Sys2Proof.Machine

/-- The host's reset is always enabled, so it is taken wherever it stands first on the agenda (R230). -/
theorem step_reset {s : State} {rest : List Turn} (h : s.host.agenda = .reset :: rest) :
    step s = .next (resetState (withAgenda rest s)) :=
  step_of_enabled h (by simp) rfl

/-- Settles O30: reset does not wait for the engine, and its step answers the reset state. -/
theorem resetTakesEffectAtOnce : Obligations.ResetTakesEffectAtOnce := fun _ _ h =>
  ⟨_, step_reset h, resetState_huffReset _, rfl, rfl, rfl, rfl, rfl⟩

theorem runEnded_iff {s : State} :
    runEnded s = true ↔ s.busy = false ∧ s.outq = [] ∧ (s.phase = .done ∨ s.phase = .error) := by
  simp [runEnded, and_assoc]

/-- Once OUTQ is empty, the host has drained every byte emitted (R56). -/
theorem emitted_of_outq_nil {s : State} (h : s.outq = []) : emitted s = s.host.drained := by
  rw [emitted, h, List.append_nil]

theorem runResult_of_done {s : State} (hend : runEnded s = true) (hp : s.phase = .done) (he : s.err = .none) :
    runResult s = some (.container s.host.drained) := by
  rw [runResult, if_pos hend, if_pos ⟨hp, he⟩]

theorem runResult_of_error {s : State} (hend : runEnded s = true) (hp : s.phase = .error) :
    runResult s = some (.failed s.err s.errInfo) := by
  rw [runResult, if_pos hend, if_neg fun ⟨hdone, _⟩ => nomatch hp.symm.trans hdone]

/-- Settles O58: in DONE the emitted bytes are the whole container and all of them are drained, and in ERROR an error code stands. -/
theorem endedRunsGiveContainerOrError : Obligations.EndedRunsGiveContainerOrError := by
  intro s hregs hout hend
  obtain ⟨-, hq, hp | hp⟩ := runEnded_iff.mp hend
  · obtain ⟨bs, hcounted, hbytes, -, -⟩ := hout.done hp
    have hdrained : s.host.drained = container s.tree (streamOf s bs) := (emitted_of_outq_nil hq).symm.trans hbytes
    have hnone : s.err = .none := hregs.err.mpr (by simp [hp])
    exact .inl ⟨hp, bs, hcounted, by rw [runResult_of_done hend hp hnone, hdrained]⟩
  · exact .inr ⟨hp, fun he => hregs.err.mp he hp, runResult_of_error hend hp⟩

end Sys2Proof.Machine
end
